-- ==== Sys2Proof/Word.lean ====
section
/-! DEFINITION. The two word types of the unit: a byte (00_scope.md R8, `u8`) and a 32-bit word
(R8, `u32`; the registers and the command word, R7). -/

namespace Sys2Proof

/-- A byte: 8 bits, always read as an unsigned integer 0 to 255 (R8; 92_eei_decisions.md D9). -/
abbrev Byte := BitVec 8

/-- `u32`: a command word, a register, a group value (R7, R8). -/
abbrev Word := BitVec 32

end Sys2Proof
end

