-- ==== Sys2Proof/Syntax.lean ====
section
/-! DEFINITION. The commands, one constructor per row of spec/opcode_table.json (30_encoding.md R50 to R53). -/

namespace Sys2Proof

/-- What a command word decodes to (R53). -/
inductive Instr where
  /-- `ENC len`: encode the raw block `IBUF[0 .. len-1]` (40_encode.md R70). -/
  | enc (len : Nat)
  /-- `DEC len`: decode the encoded block `IBUF[0 .. len-1]` (41_decode.md R80). -/
  | dec (len : Nat)
  /-- `FLT len`: filter `IBUF[0 .. len-1]` in place (42_filter.md R90). -/
  | flt (len : Nat)
  /-- A word with `op = 0b00`, whatever its low 30 bits (60_exceptions.md R101). -/
  | illegal (low : BitVec 30)
deriving DecidableEq, Repr

end Sys2Proof
end

