-- ==== Sys2Proof/WellFormed.lean ====
section
/-! DEFINITION. Which terms of `Instr` are commands: the length operand is a 30-bit field (30_encoding.md R52). -/

namespace Sys2Proof

/-- R52: `len` is an unsigned integer 0 to 2^30 - 1. -/
def lenFits (len : Nat) : Bool := decide (len < 2 ^ 30)

/-- A well-formed command. Divisibility and capacity are no part of it: they are checked when the command
runs (R53, last sentence). -/
def Instr.wellFormed : Instr → Bool
  | .enc len => lenFits len
  | .dec len => lenFits len
  | .flt len => lenFits len
  | .illegal _ => true

end Sys2Proof
end

