-- ==== Sys2Proof/Decode.lean ====
section
/-! DEFINITION. The command word: its fields, its decoder and its encoder (30_encoding.md R50 to R54). -/

namespace Sys2Proof

/-- `op = cw[31:30]` (R50). -/
def opField (cw : Word) : BitVec 2 := cw.extractLsb' 30 2

/-- `cw[29:0]` (R50, R52). -/
def lenField (cw : Word) : BitVec 30 := cw.extractLsb' 0 30

/-- The decoder of R54. It is total: every one of the 2^32 words is classified (R53), the words with
`op = 0b00` by the name `illegal`. -/
def decode (cw : Word) : Instr :=
  if opField cw = 0b01 then .enc (lenField cw).toNat
  else if opField cw = 0b10 then .dec (lenField cw).toNat
  else if opField cw = 0b11 then .flt (lenField cw).toNat
  else .illegal (lenField cw)

/-- The encoder of R54; `illegal low` is the word with `op = 0b00` and those low bits. On a term that is not
well formed the length spills into `op`: the word means something only for `wellFormed` terms. -/
def encode : Instr → Word
  | .enc len => 0x40000000#32 + BitVec.ofNat 32 len
  | .dec len => 0x80000000#32 + BitVec.ofNat 32 len
  | .flt len => 0xC0000000#32 + BitVec.ofNat 32 len
  | .illegal low => low.setWidth 32

/-- Why a string of bits is no command word. -/
inductive DecodeError where
  /-- More than 32 bits: there is one command length, 32 bits (R50, R55). -/
  | longerThanOneWord (nbits : Nat)
  /-- The number has a bit at or above `nbits`. -/
  | bitsAboveTheTop (nbits : Nat)
deriving DecidableEq, Repr

/-- Decode a number of `nbits` bits, bit 0 least significant; bits above `nbits` are 0. A command word is passed
by value (R50), so no byte order enters. -/
def decodeBits (nbits w : Nat) : Except DecodeError Instr :=
  if 32 < nbits then .error (.longerThanOneWord nbits)
  else if 2 ^ nbits ≤ w then .error (.bitsAboveTheTop nbits)
  else .ok (decode (BitVec.ofNat 32 w))

/-- What the decoder reads from an opcode-table word. -/
def decodeTableWord (nbits w : Nat) : Option Instr :=
  match decodeBits nbits w with
  | .ok i => some i
  | .error _ => none

end Sys2Proof
end

