-- ==== Sys2Proof/Machine/Code.lean ====
section
/-! DEFINITION. The Base85 data code: byte order, alphabet, weights, and the pure functions `digit`, `enc_group`,
`dec_group`, `keep` (20_memory.md R32; 30_encoding.md R57 to R66). -/

namespace Sys2Proof.Machine

/-- `be32` (R32): four bytes as a big-endian unsigned 32-bit integer. -/
def be32 (b0 b1 b2 b3 : Byte) : Word :=
  BitVec.ofNat 32 (b0.toNat * 2 ^ 24 + b1.toNat * 2 ^ 16 + b2.toNat * 2 ^ 8 + b3.toNat)

/-- `bytes_be32` (R32): `V[31:24], V[23:16], V[15:8], V[7:0]`. -/
def bytesBe32 (V : Word) : List Byte :=
  [V.extractLsb' 24 8, V.extractLsb' 16 8, V.extractLsb' 8 8, V.extractLsb' 0 8]

/-- The weights of the five digit positions (R58); a digit group has the positions 0 to 4 only. -/
def weight : Nat → Nat
  | 0 => 52200625
  | 1 => 614125
  | 2 => 7225
  | 3 => 85
  | _ => 1

/-- `digit(V, k)` (R59). -/
def digit (V : Word) (k : Nat) : Nat := V.toNat / weight k % 85

/-- The symbol of digit `d`: the byte `d + 33` (R57). -/
def symbol (d : Nat) : Byte := BitVec.ofNat 8 (d + 33)

/-- `enc_group(V)` (R60): five symbols, the most significant digit first (R33). -/
def encGroup (V : Word) : List Byte :=
  [symbol (digit V 0), symbol (digit V 1), symbol (digit V 2), symbol (digit V 3), symbol (digit V 4)]

/-- `(zext_32(c) - 33) mod 2^32` (R62): a byte below 33 wraps. -/
def codeValue (c : Byte) : Word := c.setWidth 32 - 33#32

/-- `dec_group(c0, .., c4)` (R62), in 32-bit arithmetic throughout; total, and a wrap is silent (R63). -/
def decGroup (c0 c1 c2 c3 c4 : Byte) : Word :=
  codeValue c0 * BitVec.ofNat 32 (weight 0) + codeValue c1 * BitVec.ofNat 32 (weight 1)
    + codeValue c2 * BitVec.ofNat 32 (weight 2) + codeValue c3 * BitVec.ofNat 32 (weight 3)
    + codeValue c4 * BitVec.ofNat 32 (weight 4)

/-- `keep(b)` (R65): the byte is in the alphabet, 33 to 117. -/
def keep (b : Byte) : Bool := decide (33 ≤ b.toNat ∧ b.toNat ≤ 117)

/-- R61 (d), first way: the digits by successive division from the low end, `d0` first. -/
def digitsFromLowEnd (V : Nat) : List Nat :=
  let q1 := V / 85
  let q2 := q1 / 85
  let q3 := q2 / 85
  [q3 / 85, q3 % 85, q2 % 85, q1 % 85, V % 85]

/-- R61 (d), second way: the digits by subtracting from the high end, `d0` first. -/
def digitsFromHighEnd (V : Nat) : List Nat :=
  let d0 := V / 52200625
  let r1 := V - d0 * 52200625
  let d1 := r1 / 614125
  let r2 := r1 - d1 * 614125
  let d2 := r2 / 7225
  let r3 := r2 - d2 * 7225
  let d3 := r3 / 85
  [d0, d1, d2, d3, r3 - d3 * 85]

/-- R63's equivalent form of `dec_group`, Horner's. -/
def decGroupHorner (c0 c1 c2 c3 c4 : Byte) : Word :=
  (((codeValue c0 * 85#32 + codeValue c1) * 85#32 + codeValue c2) * 85#32 + codeValue c3) * 85#32 + codeValue c4

end Sys2Proof.Machine
end

