-- ==== Sys2Proof/Config.lean ====
section
/-! DEFINITION. What an implementation of the unit fixes (the two buffer capacities, R6) and the values
the spec leaves open (R24, R92). -/

namespace Sys2Proof

/-- The open parameters a rule depends on (00_scope.md R6; 92_eei_decisions.md D20). The other two of R6,
`BUS_MAP` and `LAT`, are used by no rule (D21, D22) and have no field. -/
structure Capacities where
  /-- `IBUF_BYTES`: bytes of the input buffer. -/
  ibufBytes : Nat
  /-- `OBUF_BYTES`: bytes of the output buffer. -/
  obufBytes : Nat
deriving DecidableEq, Repr

/-- R6's constraints: `1 <= IBUF_BYTES <= 2^30 - 1` and `1 <= OBUF_BYTES <= 2^32 - 1`. -/
abbrev Capacities.legal (c : Capacities) : Prop :=
  1 ≤ c.ibufBytes ∧ c.ibufBytes ≤ 2 ^ 30 - 1 ∧ 1 ≤ c.obufBytes ∧ c.obufBytes ≤ 2 ^ 32 - 1

/-- The example configuration of 95_test_vectors.md: `IBUF_BYTES = 32`, `OBUF_BYTES = 40`.
DESIGN CHOICE (log 1), unsafe where a claim rests on it: no rule fixes a capacity. -/
def Capacities.exampleConfiguration : Capacities := { ibufBytes := 32, obufBytes := 40 }

/-- The `n`-th free byte: a byte the spec calls UNSPECIFIED (R24, R92; 93_implementation_defined.md U3, U6).
It has no body, so nothing can be proved of any of its values (log 2). -/
opaque Config.freeByte : Nat → Byte

end Sys2Proof
end

