-- ==== Sys2Proof/Machine/State.lean ====
section
/-! DEFINITION. The state of the machine (10_state.md R11), the host's transactions waiting to be performed and the
answers they gave (R23), the reasons a step can stop, and the state after reset (R24). -/

namespace Sys2Proof.Machine

/-- The written bytes of one buffer: (offset, byte) pairs, offsets strictly rising. An offset that is not listed is
one nothing has written since the last reset; reading it gives a free byte (R24, U6), see `State.ibufByte`. -/
abbrev Memory := List Host.Cell

/-- The canonical form of a buffer's cells: offsets strictly rising, so none is listed twice. -/
abbrev Memory.wf (m : Memory) : Prop := m.Pairwise fun c d => c.1 < d.1

/-- No listed offset is at or beyond the capacity (R12, R13). -/
abbrev Memory.within (capacity : Nat) (m : Memory) : Prop := ∀ c ∈ m, c.1 < capacity

/-- The three errors a command can end in (60_exceptions.md R100). -/
inductive ErrCode where
  /-- `ERR_OP`: not a command (R101). -/
  | op
  /-- `ERR_ALIGN`: the length is no multiple of the input group size (R102). -/
  | align
  /-- `ERR_RANGE`: a block does not fit its buffer (R103). -/
  | range
deriving DecidableEq, Repr

/-- What the host may ask of the unit: the transactions of R23, and the moves U7 of 93_implementation_defined.md
names that are none (they are refused). Registers are addressed by number (R17). -/
inductive Transaction where
  /-- `HostWriteIBUF(a, b)`. -/
  | writeIbuf (a : Nat) (b : Byte)
  /-- `HostReadIBUF(a)`. -/
  | readIbuf (a : Nat)
  /-- `HostReadOBUF(a)`. -/
  | readObuf (a : Nat)
  /-- A write to `OBUF`: no transaction of the unit (R13, R23); refused. -/
  | writeObuf (a : Nat) (b : Byte)
  /-- A whole-word write of register `n`: of register 0, `CMD`, it is `HostIssue(w)` (R16); else refused. -/
  | writeRegister (n : Nat) (w : Word)
  /-- A whole-word read of register `n`: of 1 `HostReadSTATUS()`, of 2 `HostReadRLEN()`; else refused. -/
  | readRegister (n : Nat)
  /-- An access to a part of a register's word: no transaction of the unit (R17, U7); refused. -/
  | partialRegister (n : Nat)
  /-- `Reset()` (R120). -/
  | reset
deriving DecidableEq, Repr

/-- What a read transaction returned to the host (R23). -/
inductive Reply where
  /-- The byte a buffer read returned. -/
  | byte (b : Byte)
  /-- The word a register read returned. -/
  | word (w : Word)
deriving DecidableEq, Repr

/-- The state. `ibuf`, `obuf`, `rlen` and `status` are the unit's (R11: exactly these four); the others are the
model's own: the parameters (log 1), the free values (log 2) and the host's side of the port (log 3). -/
structure State where
  /-- `IBUF`, the input buffer (R12). -/
  ibuf : Memory
  /-- `OBUF`, the output buffer (R13). -/
  obuf : Memory
  /-- `RLEN`, the result length register (R14). -/
  rlen : Word
  /-- `STATUS`, the status register: `ERR` in bits 1:0, bits 31:2 read 0 (R15). -/
  status : Word
  /-- The capacities `IBUF_BYTES` and `OBUF_BYTES` (R6). No step changes them (log 1). -/
  caps : Capacities
  /-- Where the free bytes of the last reset begin: `IBUF[a]` unwritten is free byte `drawBase + a` (log 2). -/
  drawBase : Nat
  /-- The next free byte no rule has used yet (log 2). -/
  draws : Nat
  /-- The transactions the host has still to perform, the next one first (log 3). -/
  requests : List Transaction
  /-- What the host's reads have returned, the oldest first (log 3). -/
  replies : List Reply
deriving DecidableEq, Repr

/-- The machine never stops with a fault: an erring command takes a next state (R105), and a move the spec does not
define is refused, not faulted (U7: "They are not `fault`"). So there is no reason to name. -/
inductive Fault
deriving DecidableEq, Repr

/-- Moves that no rule gives a meaning (R23, U7). Each is raised by `perform` and is safe: the run ends. -/
inductive Refusal where
  /-- An instruction with no meaning in the model. Raised by no arm: every command has its meaning. Safe. -/
  | notModelled (mnemonic : String)
  /-- A host access to `IBUF` at an offset at or beyond `IBUF_BYTES` (R23, U7). Raised by `hostWriteIbuf` and
  `hostReadIbuf`. Safe. -/
  | offsetOutsideIbuf (a : Nat)
  /-- A host read of `OBUF` at an offset at or beyond `OBUF_BYTES` (R23, U7). Raised by `hostReadObuf`. Safe. -/
  | offsetOutsideObuf (a : Nat)
  /-- A host write to `OBUF` (R13, R23, U7). Raised by `hostWriteObuf`. Safe. -/
  | obufIsReadOnly (a : Nat)
  /-- A host write to `STATUS` or `RLEN` (R14, R15, U7). Raised by `hostWriteRegister`. Safe. -/
  | registerIsReadOnly (n : Nat)
  /-- A host read of `CMD` (R16, U7). Raised by `hostReadRegister`. Safe. -/
  | cmdIsWriteOnly
  /-- A register number other than 0, 1, 2 (R17, R30). Raised by `hostWriteRegister`, `hostReadRegister`. Safe. -/
  | noSuchRegister (n : Nat)
  /-- An access to a part of a register (R17, U7). Raised by `hostPartialRegister`. Safe. -/
  | partialRegisterAccess (n : Nat)
deriving DecidableEq, Repr

/-- The machine right after reset (R24): `STATUS = 0`, `RLEN = 0`, no buffer byte written. Power-up is a reset (R120).
The capacities are the example configuration (DESIGN CHOICE, log 1); the free bytes begin at 0 (DESIGN CHOICE,
log 2); the host has asked for nothing yet (DESIGN CHOICE, log 3). -/
def State.reset : State :=
  { ibuf := []
    obuf := []
    rlen := 0
    status := 0
    caps := Capacities.exampleConfiguration
    drawBase := 0
    draws := Capacities.exampleConfiguration.ibufBytes + Capacities.exampleConfiguration.obufBytes
    requests := []
    replies := [] }

end Sys2Proof.Machine
end

