-- ==== Sys2Proof/Machine/Flags.lean ====
section
/-! DEFINITION. The one status field, `STATUS.ERR` (10_state.md R15, 60_exceptions.md R100). The unit has no carry,
zero, overflow or other condition flag (R20), so no flag is computed anywhere. -/

namespace Sys2Proof.Machine

/-- The code of an error (R100). -/
def ErrCode.code : ErrCode → Nat
  | .op => 1
  | .align => 2
  | .range => 3

/-- The `STATUS` word of a command that completed: `ERR = OK`, the reserved bits 0 (R15, R100). -/
def statusOk : Word := 0

/-- The `STATUS` word of a command that ended in error `e`: `STATUS[1:0] = code`, `STATUS[31:2] = 0` (R105). -/
def statusOf (e : ErrCode) : Word := BitVec.ofNat 32 e.code

/-- `STATUS.ERR`, bits 1:0 (R15). -/
def State.err (s : State) : BitVec 2 := s.status.extractLsb' 0 2

/-- `STATUS[31:2]`, reserved, always read as 0 (R15). -/
def State.statusReserved (s : State) : BitVec 30 := s.status.extractLsb' 2 30

end Sys2Proof.Machine
end

