-- ==== Sys2Proof/Machine/Ops.lean ====
section
/-! DEFINITION. The shared operations: reading and writing the buffers, the updates of State, how a command ends (with a
result or in an error), drawing free bytes, and reset. -/

namespace Sys2Proof.Machine

/-- The byte listed at an offset, none where nothing has been written. -/
def Memory.read? : Memory → Nat → Option Byte
  | [], _ => none
  | c :: m, a => if c.1 = a then some c.2 else Memory.read? m a

/-- `X[a] <- b`, keeping the offsets strictly rising. -/
def Memory.write : Memory → Nat → Byte → Memory
  | [], a, b => [(a, b)]
  | c :: m, a, b =>
    if a < c.1 then (a, b) :: c :: m
    else if a = c.1 then (a, b) :: m
    else c :: Memory.write m a b

/-- `MemWrite(X, a, n, bs)` (R8): the first byte at the lowest offset; `n` is the number of bytes of `bs`. -/
def Memory.writeAll : Memory → Nat → List Byte → Memory
  | m, _, [] => m
  | m, a, b :: bs => Memory.writeAll (Memory.write m a b) (a + 1) bs

/-- `IBUF[a]` (R8, R12): the byte written there, else the free byte that stands there since the last reset (U6). -/
def State.ibufByte (s : State) (a : Nat) : Byte :=
  (s.ibuf.read? a).getD (Config.freeByte (s.drawBase + a))

/-- `OBUF[a]` (R8, R13). Its free bytes follow those of `IBUF`, so no free byte stands at two places. -/
def State.obufByte (s : State) (a : Nat) : Byte :=
  (s.obuf.read? a).getD (Config.freeByte (s.drawBase + s.caps.ibufBytes + a))

/-- `MemRead(IBUF, 0, len)` (R8): a block starts at offset 0 (R12). -/
def State.inputBlock (s : State) (len : Nat) : List Byte := (List.range len).map s.ibufByte

/-- Replace the contents of `IBUF`. -/
def State.withIbuf (m : Memory) (s : State) : State := { s with ibuf := m }

/-- Replace the contents of `OBUF`. -/
def State.withObuf (m : Memory) (s : State) : State := { s with obuf := m }

/-- A command ends: it writes `RLEN` and the whole of `STATUS` (R14, R15). -/
def State.ended (rlen status : Word) (s : State) : State := { s with rlen := rlen, status := status }

/-- `n` free bytes have been used. -/
def State.drawn (n : Nat) (s : State) : State := { s with draws := s.draws + n }

/-- Replace the host's waiting transactions. -/
def State.withRequests (ts : List Transaction) (s : State) : State := { s with requests := ts }

/-- A read returns a value to the host, and has no other effect (R36). -/
def State.replied (r : Reply) (s : State) : State := { s with replies := s.replies ++ [r] }

/-- The next `n` free bytes: the values of `n` UNSPECIFIED bytes (U3). -/
def State.freeBytes (n : Nat) (s : State) : List Byte :=
  (List.range n).map fun j => Config.freeByte (s.draws + j)

/-- A command completes with a result of `n` bytes: `RLEN <- n`, `STATUS <- 0`. -/
def complete (n : Nat) (s : State) : Host.Outcome State Fault Refusal :=
  .next (s.ended (BitVec.ofNat 32 n) statusOk)

/-- `raise Err(e)` (R105), the one way an error is taken: `STATUS <- code`, `RLEN <- 0`, and nothing else. Nothing is
saved and control goes nowhere (R105), and there is no return from an error (R106): the next command just runs. -/
def raiseErr (e : ErrCode) (s : State) : Host.Outcome State Fault Refusal :=
  .next (s.ended 0 (statusOf e))

/-- The reset values of R24, on the machine as it is: `STATUS <- 0`, `RLEN <- 0`, every byte of both buffers a new free
byte. The parameters and the host's side are no state of the unit and stay (R11). -/
def State.resetUnit (s : State) : State :=
  { s with
    ibuf := []
    obuf := []
    rlen := 0
    status := statusOk
    drawBase := s.draws
    draws := s.draws + s.caps.ibufBytes + s.caps.obufBytes }

end Sys2Proof.Machine
end

