-- ==== Sys2Proof/Machine/Operands.lean ====
section
/-! DEFINITION. The one operand form: a length, over blocks that start at offset 0 (R37, R52), the checks a length meets
before anything is read or written (60_exceptions.md R102 to R104), and the group-indexed reads and writes (R37). -/

namespace Sys2Proof.Machine

/-- The check of a command that turns groups of `groupIn` bytes into groups of `groupOut` bytes: the first error that
applies, `ERR_ALIGN` before `ERR_RANGE` (R102, R103, R104), on unbounded integers (R31). -/
def groupCommandError (groupIn groupOut len : Nat) (c : Capacities) : Option ErrCode :=
  if len % groupIn ≠ 0 then some .align
  else if len > c.ibufBytes then some .range
  else if len / groupIn * groupOut > c.obufBytes then some .range
  else none

/-- The check of `FLT`: any length that fits `IBUF` (R90, R103). -/
def filterCommandError (len : Nat) (c : Capacities) : Option ErrCode :=
  if len > c.ibufBytes then some .range else none

/-- The raw group `g`: `be32` of `MemRead(IBUF, 4g, 4)` (R37, R70). -/
def State.rawGroup (s : State) (g : Nat) : Word :=
  be32 (s.ibufByte (4 * g)) (s.ibufByte (4 * g + 1)) (s.ibufByte (4 * g + 2)) (s.ibufByte (4 * g + 3))

/-- The value of the encoded group `g`: `dec_group` of `MemRead(IBUF, 5g, 5)` (R37, R80). -/
def State.encodedGroup (s : State) (g : Nat) : Word :=
  decGroup (s.ibufByte (5 * g)) (s.ibufByte (5 * g + 1)) (s.ibufByte (5 * g + 2)) (s.ibufByte (5 * g + 3))
    (s.ibufByte (5 * g + 4))

/-- The loop `for g = 0 to n - 1: MemWrite(X, size*g, size, out g)`, in ascending `g` (R68). -/
def writeGroups (size : Nat) (out : Nat → List Byte) : Nat → Memory → Memory
  | 0, m => m
  | n + 1, m => (writeGroups size out n m).writeAll (size * n) (out n)

end Sys2Proof.Machine
end

