-- ==== Sys2Proof/Machine/Decoder.lean ====
section
/-! DEFINITION. The decoder family: the meaning of `DEC` (41_decode.md R80). -/

namespace Sys2Proof.Machine

/-- `OBUF` after the groups `0 .. n-1` of the encoded block are decoded (R80's loop). The content of the input is never
a cause of error (R82, R83). -/
def State.decoded (s : State) (n : Nat) : Memory :=
  writeGroups 4 (fun g => bytesBe32 (s.encodedGroup g)) n s.obuf

/-- `DEC len` (R80). -/
def execDec (len : Nat) (s : State) : Host.Outcome State Fault Refusal :=
  match groupCommandError 5 4 len s.caps with
  | some e => raiseErr e s
  | none => complete (4 * (len / 5)) (s.withObuf (s.decoded (len / 5)))

end Sys2Proof.Machine
end

