-- ==== Sys2Proof/Machine/Encoder.lean ====
section
/-! DEFINITION. The encoder family: the meaning of `ENC` (40_encode.md R70). -/

namespace Sys2Proof.Machine

/-- `OBUF` after the groups `0 .. n-1` of the raw block are encoded (R70's loop). -/
def State.encoded (s : State) (n : Nat) : Memory :=
  writeGroups 5 (fun g => encGroup (s.rawGroup g)) n s.obuf

/-- `ENC len` (R70). -/
def execEnc (len : Nat) (s : State) : Host.Outcome State Fault Refusal :=
  match groupCommandError 4 5 len s.caps with
  | some e => raiseErr e s
  | none => complete (5 * (len / 4)) (s.withObuf (s.encoded (len / 4)))

end Sys2Proof.Machine
end

