-- ==== Sys2Proof/Machine/Filter.lean ====
section
/-! DEFINITION. The filter family: the meaning of `FLT` (42_filter.md R90, R92), and the two-index form of R91, which is no
part of the machine: it is there to be compared with the contract. -/

namespace Sys2Proof.Machine

/-- `K` of R90: the bytes of the block that are in the alphabet, in their order. -/
def State.keptBytes (s : State) (len : Nat) : List Byte := (s.inputBlock len).filter keep

/-- `IBUF` after the filter: `K` from offset 0, then free bytes up to `len` (R90, R92). -/
def State.filtered (s : State) (len : Nat) : Memory :=
  (s.ibuf.writeAll 0 (s.keptBytes len)).writeAll (s.keptBytes len).length
    (s.freeBytes (len - (s.keptBytes len).length))

/-- `FLT len` (R90). The bytes `IBUF[RLEN .. len-1]` are free values (R92, U3; log 2). -/
def execFlt (len : Nat) (s : State) : Host.Outcome State Fault Refusal :=
  match filterCommandError len s.caps with
  | some e => raiseErr e s
  | none =>
    complete (s.keptBytes len).length
      ((s.withIbuf (s.filtered len)).drawn (len - (s.keptBytes len).length))

/-- R91's two-index compaction after the bytes `0 .. r-1` are scanned: the write index and the state with `IBUF` so far.
Each byte is read from the buffer as compacted up to then. -/
def twoIndexFilter (s : State) : Nat → Nat × State
  | 0 => (0, s)
  | r + 1 =>
    let (w, t) := twoIndexFilter s r
    let b := t.ibufByte r
    if keep b then (w + 1, t.withIbuf (t.ibuf.write w b)) else (w, t)

end Sys2Proof.Machine
end

