-- ==== Sys2Proof/Machine/Illegal.lean ====
section
/-! DEFINITION. The words that are no command: `op = 0b00` (60_exceptions.md R101). -/

namespace Sys2Proof.Machine

/-- An illegal word raises `ERR_OP`, whatever its other 30 bits: it has no length to check (R101). -/
def execIllegal (_low : BitVec 30) (s : State) : Host.Outcome State Fault Refusal :=
  raiseErr .op s

end Sys2Proof.Machine
end

