-- ==== Sys2Proof/Machine/Dispatch.lean ====
section
/-! DEFINITION. One arm per command: `execute(cw)` of 60_exceptions.md R104, after decoding. -/

namespace Sys2Proof.Machine

def exec (i : Instr) (s : State) : Host.Outcome State Fault Refusal :=
  match i with
  | .enc len => Sys2Proof.Machine.execEnc len s
  | .dec len => Sys2Proof.Machine.execDec len s
  | .flt len => Sys2Proof.Machine.execFlt len s
  | .illegal low => Sys2Proof.Machine.execIllegal low s

end Sys2Proof.Machine
end

