-- ==== Sys2Proof/Machine/Transactions.lean ====
section
/-! DEFINITION. The host's transactions (10_state.md R23, 70_reset_and_hazards.md R120), and the moves that are none and are
refused (93_implementation_defined.md U7). -/

namespace Sys2Proof.Machine

/-- The number of `CMD` (R17). -/
abbrev cmdNumber : Nat := 0

/-- The number of `STATUS` (R17). -/
abbrev statusNumber : Nat := 1

/-- The number of `RLEN` (R17). -/
abbrev rlenNumber : Nat := 2

/-- `HostIssue(cw)`: a write of `CMD` (R16). -/
def Transaction.issue (cw : Word) : Transaction := .writeRegister cmdNumber cw

/-- `HostReadSTATUS()` (R23). -/
def Transaction.readStatus : Transaction := .readRegister statusNumber

/-- `HostReadRLEN()` (R23). -/
def Transaction.readRlen : Transaction := .readRegister rlenNumber

/-- `HostWriteIBUF(a, b)`: `IBUF[a] <- b`. -/
def hostWriteIbuf (a : Nat) (b : Byte) (s : State) : Host.Outcome State Fault Refusal :=
  if a < s.caps.ibufBytes then .next (s.withIbuf (s.ibuf.write a b)) else .refused (.offsetOutsideIbuf a)

/-- `HostReadIBUF(a)`: returns `IBUF[a]`. -/
def hostReadIbuf (a : Nat) (s : State) : Host.Outcome State Fault Refusal :=
  if a < s.caps.ibufBytes then .next (s.replied (.byte (s.ibufByte a))) else .refused (.offsetOutsideIbuf a)

/-- `HostReadOBUF(a)`: returns `OBUF[a]`. -/
def hostReadObuf (a : Nat) (s : State) : Host.Outcome State Fault Refusal :=
  if a < s.caps.obufBytes then .next (s.replied (.byte (s.obufByte a))) else .refused (.offsetOutsideObuf a)

/-- The host cannot write `OBUF` (R13, R23). -/
def hostWriteObuf (a : Nat) (_s : State) : Host.Outcome State Fault Refusal :=
  .refused (.obufIsReadOnly a)

/-- A write of `CMD` executes the command its word decodes to (R16); `STATUS` and `RLEN` are read-only (R14, R15). -/
def hostWriteRegister (n : Nat) (w : Word) (s : State) : Host.Outcome State Fault Refusal :=
  if n = cmdNumber then exec (decode w) s
  else if n = statusNumber ∨ n = rlenNumber then .refused (.registerIsReadOnly n)
  else .refused (.noSuchRegister n)

/-- `HostReadSTATUS()` and `HostReadRLEN()`; `CMD` is write-only and holds no value (R16). -/
def hostReadRegister (n : Nat) (s : State) : Host.Outcome State Fault Refusal :=
  if n = statusNumber then .next (s.replied (.word s.status))
  else if n = rlenNumber then .next (s.replied (.word s.rlen))
  else if n = cmdNumber then .refused .cmdIsWriteOnly
  else .refused (.noSuchRegister n)

/-- A register is accessed only as a whole word (R17). -/
def hostPartialRegister (n : Nat) (_s : State) : Host.Outcome State Fault Refusal :=
  .refused (.partialRegisterAccess n)

/-- `Reset()` (R120). -/
def hostReset (s : State) : Host.Outcome State Fault Refusal := .next s.resetUnit

/-- Perform one transaction of the host; each is atomic (R23, R39). -/
def perform (t : Transaction) (s : State) : Host.Outcome State Fault Refusal :=
  match t with
  | .writeIbuf a b => hostWriteIbuf a b s
  | .readIbuf a => hostReadIbuf a s
  | .readObuf a => hostReadObuf a s
  | .writeObuf a _ => hostWriteObuf a s
  | .writeRegister n w => hostWriteRegister n w s
  | .readRegister n => hostReadRegister n s
  | .partialRegister n => hostPartialRegister n s
  | .reset => hostReset s

/-- The next transaction of the host is the issue of this word: a command word is not fetched from a memory but passed
by value (R42, R50). -/
def State.withIssue (w : Word) (s : State) : State := s.withRequests (.issue w :: s.requests)

end Sys2Proof.Machine
end

