-- ==== Sys2Proof/Machine/Step.lean ====
section
/-! DEFINITION. One step of the machine: the host performs its next transaction, and with none nothing happens (R10: "with
no command issued, no state changes"). -/

namespace Sys2Proof.Machine

/-- One step (R10, R23, R38: one transaction at a time, in the host's order). -/
def step (s : State) : Host.Outcome State Fault Refusal :=
  match s.requests with
  | [] => .next s
  | t :: rest => perform t (s.withRequests rest)

/-- `s` with the issue of the word `w` as the host's very next transaction; it is where the unit takes a command from
(R16, R50). One command word has 32 bits, and the bits above `nbits` are 0. -/
def State.withFetchWord (s : State) (_nbits w : Nat) : State := s.withIssue (BitVec.ofNat 32 w)

end Sys2Proof.Machine
end

