-- ==== Sys2Proof/Machine/HostProcedures.lean ====
section
/-! DEFINITION. What a host does around `ENC` and `DEC` at the end of a stream (70_reset_and_hazards.md R128 to R131). These
bind the host, not the unit: the unit never pads and never truncates (R73, R85). -/

namespace Sys2Proof.Machine

/-- R128: how many zero bytes the host appends to `count` raw bytes. -/
def encPadding (count : Nat) : Nat := (4 - count % 4) % 4

/-- R130: how many `'u'` bytes the host appends to `count` encoded bytes. -/
def decPadding (count : Nat) : Nat := (5 - count % 5) % 5

/-- R130: the pad symbol, `'u'`. -/
def padSymbol : Byte := 0x75

/-- R128: with `count` raw bytes in `IBUF`, the host pads them and issues `ENC paddedCount`. -/
def encodeTail (count : Nat) : List Transaction :=
  (List.range (encPadding count)).map (fun j => Transaction.writeIbuf (count + j) 0)
    ++ [Transaction.issue (encode (.enc (count + encPadding count)))]

/-- R130: with `count` encoded bytes in `IBUF`, the host pads them and issues `DEC paddedCount`. For an empty chunk
(`count = 0`) R130 lets the host issue `DEC 0` or skip the command; here it issues `DEC 0` (DESIGN CHOICE, log 11). -/
def decodeTail (count : Nat) : List Transaction :=
  (List.range (decPadding count)).map (fun j => Transaction.writeIbuf (count + j) padSymbol)
    ++ [Transaction.issue (encode (.dec (count + decPadding count)))]

/-- R129: how many bytes of the `RLEN` encoded ones the host keeps. -/
def encKept (count : Nat) : Nat := (count + encPadding count) / 4 * 5 - encPadding count

/-- R131: how many bytes of the `RLEN` decoded ones the host keeps. -/
def decKept (count : Nat) : Nat := (count + decPadding count) / 5 * 4 - decPadding count

end Sys2Proof.Machine
end

