-- ==== Sys2Proof/Safety.lean ====
section
/-! DEFINITION. What claims are stated in: which transactions the unit defines (R23), which encoded groups are canonical (R64),
and the invariant every step keeps. -/

namespace Sys2Proof.Machine

/-- The precondition column of R23's table; false of the moves that are no transaction (U7). -/
def Transaction.definedFor (c : Capacities) : Transaction → Bool
  | .writeIbuf a _ => decide (a < c.ibufBytes)
  | .readIbuf a => decide (a < c.ibufBytes)
  | .readObuf a => decide (a < c.obufBytes)
  | .writeObuf _ _ => false
  | .writeRegister n _ => decide (n = 0)
  | .readRegister n => decide (n = 1 ∨ n = 2)
  | .partialRegister _ => false
  | .reset => true

/-- An in-alphabet byte (R9): 33 to 117. -/
abbrev InAlphabet (b : Byte) : Prop := 33 ≤ b.toNat ∧ b.toNat ≤ 117

/-- The integer weighted sum of five bytes, `Σ (c_j - 33) * weight_j` over the mathematical integers (R62). -/
def groupSum (c0 c1 c2 c3 c4 : Byte) : Int :=
  ((c0.toNat : Int) - 33) * 52200625 + ((c1.toNat : Int) - 33) * 614125 + ((c2.toNat : Int) - 33) * 7225
    + ((c3.toNat : Int) - 33) * 85 + ((c4.toNat : Int) - 33)

/-- A canonical group: `enc_group(V)` for some `V` (R9, R64). -/
def Canonical (G : List Byte) : Prop := ∃ V : Word, encGroup V = G

/-- Byte-wise lexicographic order (R61 e, R64). -/
def Precedes (G H : List Byte) : Prop := List.Lex (fun a b : Byte => a.toNat < b.toNat) G H

/-- The code a command reports, 0 for none: the first error that applies, in R104's order. -/
def expectedError (i : Instr) (c : Capacities) : Nat :=
  match i with
  | .illegal _ => 1
  | .enc len => if len % 4 ≠ 0 then 2 else if len > c.ibufBytes ∨ len / 4 * 5 > c.obufBytes then 3 else 0
  | .dec len => if len % 5 ≠ 0 then 2 else if len > c.ibufBytes ∨ len / 5 * 4 > c.obufBytes then 3 else 0
  | .flt len => if len > c.ibufBytes then 3 else 0

/-- What every step keeps. -/
structure State.Inv (s : State) : Prop where
  /-- The parameters satisfy R6. -/
  capsLegal : s.caps.legal
  /-- `IBUF` is in canonical form. -/
  ibufWf : Memory.wf s.ibuf
  /-- `OBUF` is in canonical form. -/
  obufWf : Memory.wf s.obuf
  /-- No byte of `IBUF` stands beyond its capacity (R12). -/
  ibufWithin : Memory.within s.caps.ibufBytes s.ibuf
  /-- No byte of `OBUF` stands beyond its capacity (R13). -/
  obufWithin : Memory.within s.caps.obufBytes s.obuf
  /-- The reserved bits of `STATUS` read as 0 (R15). -/
  reservedZero : s.statusReserved = 0
  /-- A command that ended in error left `RLEN = 0` (R105). -/
  errorMeansEmpty : s.err ≠ 0 → s.rlen = 0
  /-- A result never exceeds the buffer it stands in: `OBUF` after `ENC` and `DEC`, `IBUF` after `FLT` (R14). -/
  resultFits : s.rlen.toNat ≤ s.caps.obufBytes ∨ s.rlen.toNat ≤ s.caps.ibufBytes
  /-- The free bytes still to be drawn are none of those the last reset used (the model's own, log 2). -/
  drawsFresh : s.drawBase + s.caps.ibufBytes + s.caps.obufBytes ≤ s.draws

end Sys2Proof.Machine
end

