-- ==== Sys2Proof/Certificates/Slice0/Obligations.lean ====
section
/-! DEFINITION. The statements for the provers, each from the rules its docstring names. -/

open Sys2Proof Sys2Proof.Machine

/-! ## Command words -/

/-- R53, R54: the decoder and the encoder agree, both ways round, on every well-formed command and on every word. -/
def Obligations.DecodeAndEncodeAreInverse : Prop :=
  (∀ i : Instr, i.wellFormed = true → decode (encode i) = i) ∧
  (∀ cw : Word, (decode cw).wellFormed = true ∧ encode (decode cw) = cw)

/-- R51, R53: every word decodes to exactly one of the four, by its bits 31:30; a word is illegal exactly when they are 0,
and then it only reports `ERR_OP`; all 2^30 lengths are decoded for each of the three operations. -/
def Obligations.EveryWordIsClassifiedByItsOpField : Prop :=
  ∀ cw : Word,
    (cw.toNat / 2 ^ 30 % 4 = 1 → decode cw = .enc (cw.toNat % 2 ^ 30)) ∧
    (cw.toNat / 2 ^ 30 % 4 = 2 → decode cw = .dec (cw.toNat % 2 ^ 30)) ∧
    (cw.toNat / 2 ^ 30 % 4 = 3 → decode cw = .flt (cw.toNat % 2 ^ 30)) ∧
    ((∃ low, decode cw = .illegal low) ↔ cw.toNat / 2 ^ 30 % 4 = 0) ∧
    (cw.toNat / 2 ^ 30 % 4 = 0 →
      ∀ s : State, exec (decode cw) s = .next { s with status := 1, rlen := 0 }) ∧
    (∀ len : Nat, len < 2 ^ 30 → ∃ e d f : Word,
      decode e = .enc len ∧ decode d = .dec len ∧ decode f = .flt len)

/-- R54: the decoder by match and mask, the encoder, and the rule's examples. -/
def Obligations.DecoderFollowsItsMatchAndMask : Prop :=
  (∀ cw : Word,
    (cw &&& 0xC0000000#32 = 0x40000000#32 → decode cw = .enc (cw.toNat % 2 ^ 30)) ∧
    (cw &&& 0xC0000000#32 = 0x80000000#32 → decode cw = .dec (cw.toNat % 2 ^ 30)) ∧
    (cw &&& 0xC0000000#32 = 0xC0000000#32 → decode cw = .flt (cw.toNat % 2 ^ 30)) ∧
    (cw &&& 0xC0000000#32 = 0x00000000#32 → ∃ low, decode cw = .illegal low)) ∧
  (∀ len : Nat, len ≤ 2 ^ 30 - 1 →
    (encode (.enc len)).toNat = 0x40000000 + len ∧
    (encode (.dec len)).toNat = 0x80000000 + len ∧
    (encode (.flt len)).toNat = 0xC0000000 + len) ∧
  encode (.enc 4) = 0x40000004#32 ∧ encode (.dec 5) = 0x80000005#32 ∧ encode (.flt 6) = 0xC0000006#32 ∧
  encode (.enc 0) = 0x40000000#32 ∧
  (∃ low, decode 0x00000000#32 = .illegal low) ∧ (∃ low, decode 0x3FFFFFFF#32 = .illegal low)

/-- A few words of 95_test_vectors.md 2.4, one of each row of the opcode table and the ends of the length field. -/
def Obligations.WrittenWordsDecode : Prop :=
  decode 0x40000004#32 = .enc 4 ∧ decode 0x40000026#32 = .enc 38 ∧ decode 0x7FFFFFFC#32 = .enc 1073741820 ∧
  decode 0x8000001E#32 = .dec 30 ∧ decode 0x80000005#32 = .dec 5 ∧
  decode 0xC0000021#32 = .flt 33 ∧ decode 0xFFFFFFFF#32 = .flt 1073741823 ∧
  decode 0x00000004#32 = .illegal 4 ∧ decode 0x3FFFFFFF#32 = .illegal 0x3FFFFFFF#30

/-! ## The data code -/

/-- R32: `be32` is the big-endian value of its bytes, and `bytes_be32` and `be32` are inverse to one another. -/
def Obligations.BigEndianConversionsAreInverse : Prop :=
  (∀ b0 b1 b2 b3 : Byte,
    (be32 b0 b1 b2 b3).toNat
      = b0.toNat * 2 ^ 24 + b1.toNat * 2 ^ 16 + b2.toNat * 2 ^ 8 + b3.toNat ∧
    bytesBe32 (be32 b0 b1 b2 b3) = [b0, b1, b2, b3]) ∧
  (∀ V : Word, ∃ b0 b1 b2 b3 : Byte, bytesBe32 V = [b0, b1, b2, b3] ∧ be32 b0 b1 b2 b3 = V ∧
    b0.toNat = V.toNat / 2 ^ 24 % 256 ∧ b1.toNat = V.toNat / 2 ^ 16 % 256 ∧
    b2.toNat = V.toNat / 2 ^ 8 % 256 ∧ b3.toNat = V.toNat % 256)

/-- R59, R60, and R61 (a), (b), (c): `enc_group(V)` is the five symbols of the base-85 digits of `V`, most significant first;
the digits are 0 to 84 and sum to `V` exactly; the leading digit is at most 82; every byte is in the alphabet. -/
def Obligations.EncGroupIsTheBase85Expansion : Prop :=
  ∀ V : Word, ∃ d0 d1 d2 d3 d4 : Nat,
    d0 = V.toNat / 52200625 % 85 ∧ d1 = V.toNat / 614125 % 85 ∧ d2 = V.toNat / 7225 % 85 ∧
    d3 = V.toNat / 85 % 85 ∧ d4 = V.toNat / 1 % 85 ∧
    encGroup V = [BitVec.ofNat 8 (d0 + 33), BitVec.ofNat 8 (d1 + 33), BitVec.ofNat 8 (d2 + 33),
      BitVec.ofNat 8 (d3 + 33), BitVec.ofNat 8 (d4 + 33)] ∧
    d0 ≤ 82 ∧ d1 ≤ 84 ∧ d2 ≤ 84 ∧ d3 ≤ 84 ∧ d4 ≤ 84 ∧
    V.toNat = d0 * 52200625 + d1 * 614125 + d2 * 7225 + d3 * 85 + d4 ∧
    (∀ b ∈ encGroup V, InAlphabet b)

/-- R61 (e): `enc_group` is injective and preserves order, bytes compared lexicographically. -/
def Obligations.EncGroupPreservesOrder : Prop :=
  ∀ V W : Word,
    (V.toNat < W.toNat ↔ Precedes (encGroup V) (encGroup W)) ∧ (encGroup V = encGroup W → V = W)

/-- R61 (d): dividing from the low end and subtracting from the high end give the same five digits. -/
def Obligations.OtherWaysToTheDigitsAgree : Prop :=
  ∀ V : Word,
    digitsFromLowEnd V.toNat = [digit V 0, digit V 1, digit V 2, digit V 3, digit V 4] ∧
    digitsFromHighEnd V.toNat = [digit V 0, digit V 1, digit V 2, digit V 3, digit V 4]

/-- R62: `dec_group` is the sum in 32-bit arithmetic, equal to the sum over the integers reduced once; for five in-alphabet
bytes whose integer sum is at most 2^32 - 1 it is that sum. -/
def Obligations.DecGroupIsTheWeightedSum : Prop :=
  ∀ c0 c1 c2 c3 c4 : Byte,
    (decGroup c0 c1 c2 c3 c4).toNat
      = ((c0.toNat + 2 ^ 32 - 33) % 2 ^ 32 * 52200625 + (c1.toNat + 2 ^ 32 - 33) % 2 ^ 32 * 614125
          + (c2.toNat + 2 ^ 32 - 33) % 2 ^ 32 * 7225 + (c3.toNat + 2 ^ 32 - 33) % 2 ^ 32 * 85
          + (c4.toNat + 2 ^ 32 - 33) % 2 ^ 32 * 1) % 2 ^ 32 ∧
    ((decGroup c0 c1 c2 c3 c4).toNat : Int) = groupSum c0 c1 c2 c3 c4 % 2 ^ 32 ∧
    ((∀ c ∈ [c0, c1, c2, c3, c4], InAlphabet c) → groupSum c0 c1 c2 c3 c4 ≤ 2 ^ 32 - 1 →
      ((decGroup c0 c1 c2 c3 c4).toNat : Int) = groupSum c0 c1 c2 c3 c4)

/-- R63: Horner's form gives the same value for every five bytes. -/
def Obligations.HornerFormAgrees : Prop :=
  ∀ c0 c1 c2 c3 c4 : Byte, decGroupHorner c0 c1 c2 c3 c4 = decGroup c0 c1 c2 c3 c4

/-- R64, first sentence: decoding the group of `V` gives `V`, for every 32-bit `V`. -/
def Obligations.DecodingAnEncodedGroupGivesItBack : Prop :=
  ∀ (V : Word) (c0 c1 c2 c3 c4 : Byte),
    encGroup V = [c0, c1, c2, c3, c4] → decGroup c0 c1 c2 c3 c4 = V

/-- R64, R83: a group is canonical exactly when its bytes are in the alphabet and its integer sum is at most 4294967295,
equivalently when it does not come after `"s8W-!"`; encoding its value then gives it back. Any other in-alphabet
group decodes by exactly one wrap, to at most 142085828, and encoding that value does not give it back. -/
def Obligations.CanonicalGroupsAreThoseBelowTwoToThe32 : Prop :=
  ∀ c0 c1 c2 c3 c4 : Byte,
    (Canonical [c0, c1, c2, c3, c4] ↔
      (∀ c ∈ [c0, c1, c2, c3, c4], InAlphabet c) ∧ groupSum c0 c1 c2 c3 c4 ≤ 4294967295) ∧
    (Canonical [c0, c1, c2, c3, c4] ↔
      (∀ c ∈ [c0, c1, c2, c3, c4], InAlphabet c) ∧
        ¬ Precedes [0x73#8, 0x38#8, 0x57#8, 0x2D#8, 0x21#8] [c0, c1, c2, c3, c4]) ∧
    (Canonical [c0, c1, c2, c3, c4] → encGroup (decGroup c0 c1 c2 c3 c4) = [c0, c1, c2, c3, c4]) ∧
    ((∀ c ∈ [c0, c1, c2, c3, c4], InAlphabet c) → ¬ Canonical [c0, c1, c2, c3, c4] →
      ((decGroup c0 c1 c2 c3 c4).toNat : Int) = groupSum c0 c1 c2 c3 c4 - 4294967296 ∧
      (decGroup c0 c1 c2 c3 c4).toNat ≤ 142085828 ∧
      encGroup (decGroup c0 c1 c2 c3 c4) ≠ [c0, c1, c2, c3, c4])

/-- R65: `keep(b)` is true exactly for 33 to 117; of the 256 byte values 85 are kept and 171 dropped. -/
def Obligations.KeepAcceptsExactlyTheAlphabet : Prop :=
  (∀ b : Byte, keep b = true ↔ 33 ≤ b.toNat ∧ b.toNat ≤ 117) ∧
  ((List.range 256).countP fun n => keep (BitVec.ofNat 8 n)) = 85 ∧
  ((List.range 256).countP fun n => !keep (BitVec.ofNat 8 n)) = 171

/-! ## The commands -/

/-- R70: `ENC len`, whole: its word, its errors in their order, its effect, what it leaves unchanged, and the
rule's example. -/
def Obligations.EncEncodesTheBlock : Prop :=
  ∀ (len : Nat) (s : State),
    (len < 2 ^ 30 → decode (BitVec.ofNat 32 (0x40000000 + len)) = .enc len) ∧
    (len % 4 ≠ 0 → exec (.enc len) s = .next { s with status := 2, rlen := 0 }) ∧
    (len % 4 = 0 → len > s.caps.ibufBytes ∨ len / 4 * 5 > s.caps.obufBytes →
      exec (.enc len) s = .next { s with status := 3, rlen := 0 }) ∧
    (len % 4 = 0 → len ≤ s.caps.ibufBytes → len / 4 * 5 ≤ s.caps.obufBytes →
      ∃ t : State, exec (.enc len) s = .next t ∧
        (∀ g : Nat, g < len / 4 →
          (List.range 5).map (fun k => t.obufByte (5 * g + k))
            = encGroup (be32 (s.ibufByte (4 * g)) (s.ibufByte (4 * g + 1)) (s.ibufByte (4 * g + 2))
                (s.ibufByte (4 * g + 3)))) ∧
        (∀ a : Nat, 5 * (len / 4) ≤ a → t.obufByte a = s.obufByte a) ∧
        (∀ a : Nat, t.ibufByte a = s.ibufByte a) ∧
        (len < 2 ^ 30 → t.rlen.toNat = 5 * (len / 4)) ∧
        t = { s with obuf := t.obuf, rlen := BitVec.ofNat 32 (5 * (len / 4)), status := 0 }) ∧
    encGroup (be32 0x4D#8 0x61#8 0x6E#8 0x20#8) = [0x39#8, 0x6A#8, 0x71#8, 0x6F#8, 0x5E#8]

/-- R80: `DEC len`, whole: its word, its errors in their order, its effect on any bytes, what it leaves
unchanged, and the rule's example. -/
def Obligations.DecDecodesTheBlock : Prop :=
  ∀ (len : Nat) (s : State),
    (len < 2 ^ 30 → decode (BitVec.ofNat 32 (0x80000000 + len)) = .dec len) ∧
    (len % 5 ≠ 0 → exec (.dec len) s = .next { s with status := 2, rlen := 0 }) ∧
    (len % 5 = 0 → len > s.caps.ibufBytes ∨ len / 5 * 4 > s.caps.obufBytes →
      exec (.dec len) s = .next { s with status := 3, rlen := 0 }) ∧
    (len % 5 = 0 → len ≤ s.caps.ibufBytes → len / 5 * 4 ≤ s.caps.obufBytes →
      ∃ t : State, exec (.dec len) s = .next t ∧
        (∀ g : Nat, g < len / 5 →
          (List.range 4).map (fun k => t.obufByte (4 * g + k))
            = bytesBe32 (decGroup (s.ibufByte (5 * g)) (s.ibufByte (5 * g + 1)) (s.ibufByte (5 * g + 2))
                (s.ibufByte (5 * g + 3)) (s.ibufByte (5 * g + 4)))) ∧
        (∀ a : Nat, 4 * (len / 5) ≤ a → t.obufByte a = s.obufByte a) ∧
        (∀ a : Nat, t.ibufByte a = s.ibufByte a) ∧
        (len < 2 ^ 30 → t.rlen.toNat = 4 * (len / 5)) ∧
        t = { s with obuf := t.obuf, rlen := BitVec.ofNat 32 (4 * (len / 5)), status := 0 }) ∧
    bytesBe32 (decGroup 0x39#8 0x6A#8 0x71#8 0x6F#8 0x5E#8) = [0x4D#8, 0x61#8, 0x6E#8, 0x20#8]

/-- R90: `FLT len`, whole: its word, its one error, the kept bytes in their order from offset 0, their number, and what it
leaves unchanged. Of the bytes from `RLEN` to `len - 1` nothing is said: they are unspecified (R92). The counter
`draws` is the model's own (log 2). -/
def Obligations.FltCompactsTheBlock : Prop :=
  ∀ (len : Nat) (s : State),
    (len < 2 ^ 30 → decode (BitVec.ofNat 32 (0xC0000000 + len)) = .flt len) ∧
    (len > s.caps.ibufBytes → exec (.flt len) s = .next { s with status := 3, rlen := 0 }) ∧
    (len ≤ s.caps.ibufBytes →
      ∃ (t : State) (K : List Byte),
        K = ((List.range len).map s.ibufByte).filter (fun b => decide (33 ≤ b.toNat ∧ b.toNat ≤ 117)) ∧
        exec (.flt len) s = .next t ∧
        (List.range K.length).map t.ibufByte = K ∧
        (∀ a : Nat, len ≤ a → t.ibufByte a = s.ibufByte a) ∧
        (∀ a : Nat, t.obufByte a = s.obufByte a) ∧
        (len < 2 ^ 30 → t.rlen.toNat = K.length) ∧
        t = { s with ibuf := t.ibuf, draws := t.draws, rlen := BitVec.ofNat 32 K.length, status := 0 })

/-- The model's own reading of R92's UNSPECIFIED (log 2): each byte from `RLEN` to `len - 1` is a free byte of its own that
was not drawn before, and the counter moves past them. It holds whatever the free bytes are. -/
def Obligations.FltTailBytesAreFreshFreeBytes : Prop :=
  ∀ (len : Nat) (s : State), len ≤ s.caps.ibufBytes → len < 2 ^ 30 →
    ∃ t : State, exec (.flt len) s = .next t ∧
      t.draws = s.draws + (len - t.rlen.toNat) ∧
      ∀ a : Nat, t.rlen.toNat ≤ a → a < len →
        t.ibufByte a = Config.freeByte (s.draws + (a - t.rlen.toNat))

/-- R101: a word with `cw[31:30] = 0b00` raises `ERR_OP`, whatever the other 30 bits, and does nothing else. -/
def Obligations.IllegalWordRaisesErrOp : Prop :=
  (∀ (low : BitVec 30) (s : State), exec (.illegal low) s = .next { s with status := 1, rlen := 0 }) ∧
  (∀ (cw : Word) (s : State), cw.toNat / 2 ^ 30 = 0 →
    exec (decode cw) s = .next { s with status := 1, rlen := 0 })

/-- R102 to R105: every command ends, in the first error that applies in the order `ERR_OP`, `ERR_ALIGN`, `ERR_RANGE`, or in
none; an error writes `STATUS` and `RLEN` and changes nothing else. Nothing but those conditions is an error (R107). -/
def Obligations.ACommandReportsTheFirstErrorThatApplies : Prop :=
  (∀ (i : Instr) (s : State),
    ∃ t : State, exec i s = .next t ∧
      t.status = BitVec.ofNat 32 (expectedError i s.caps) ∧
      (expectedError i s.caps ≠ 0 → t = { s with status := t.status, rlen := 0 })) ∧
  (∀ s : State, s.caps.ibufBytes = 4 → exec (.enc 6) s = .next { s with status := 2, rlen := 0 })

/-- R25: the frame rule. A command changes only the locations its own rule names; one that ends in error changes only
`STATUS` and `RLEN`. The fields that are the model's own stay too, but for `FLT`'s `draws` (log 2). -/
def Obligations.ACommandChangesOnlyWhatItsRuleNames : Prop :=
  ∀ (i : Instr) (s t : State), i.wellFormed = true → exec i s = .next t →
    t.caps = s.caps ∧ t.requests = s.requests ∧ t.replies = s.replies ∧ t.drawBase = s.drawBase ∧
    (t.status ≠ 0 → t = { s with status := t.status, rlen := t.rlen }) ∧
    ((∀ len : Nat, i ≠ .flt len) →
      (∀ a : Nat, t.ibufByte a = s.ibufByte a) ∧
      (∀ a : Nat, t.rlen.toNat ≤ a → t.obufByte a = s.obufByte a) ∧ t.draws = s.draws) ∧
    (∀ len : Nat, i = .flt len →
      (∀ a : Nat, t.obufByte a = s.obufByte a) ∧ (∀ a : Nat, len ≤ a → t.ibufByte a = s.ibufByte a))

/-- R22, and R72 (h), R84 (g): a command's result (the bytes it writes, `RLEN`, `STATUS`) is a function of the command and of the
bytes `IBUF[0 .. len-1]` alone: two states of one configuration that agree on those bytes give the same, whatever else
they hold. The bytes `FLT` leaves unspecified are the rule's one exception. -/
def Obligations.ResultDependsOnlyOnCommandAndIbuf : Prop :=
  ∀ (i : Instr) (s s' : State), s'.caps = s.caps →
    (∀ len a : Nat, i = .enc len ∨ i = .dec len ∨ i = .flt len → a < len → s'.ibufByte a = s.ibufByte a) →
    ∃ t t' : State, exec i s = .next t ∧ exec i s' = .next t' ∧
      t'.status = t.status ∧ t'.rlen = t.rlen ∧
      ((∀ len : Nat, i ≠ .flt len) → ∀ a : Nat, a < t.rlen.toNat → t'.obufByte a = t.obufByte a) ∧
      ((∃ len : Nat, i = .flt len) → ∀ a : Nat, a < t.rlen.toNat → t'.ibufByte a = t.ibufByte a)

/-- R106: `STATUS` and `RLEN` are not sticky: what they held before a command has no part in what it does. -/
def Obligations.OldStatusAndLengthPlayNoPart : Prop :=
  ∀ (i : Instr) (s : State) (status rlen : Word), exec i { s with status := status, rlen := rlen } = exec i s

/-- R67: group `g` of the output depends on group `g` of the input and on no other, whatever the two blocks' lengths and the
two units' capacities. -/
def Obligations.GroupsAreIndependent : Prop :=
  ∀ (len len' g : Nat) (s s' t t' : State),
    (t.status = 0 → t'.status = 0 → g < len / 4 → g < len' / 4 →
      exec (.enc len) s = .next t → exec (.enc len') s' = .next t' →
      (∀ k : Nat, k < 4 → s'.ibufByte (4 * g + k) = s.ibufByte (4 * g + k)) →
      ∀ k : Nat, k < 5 → t'.obufByte (5 * g + k) = t.obufByte (5 * g + k)) ∧
    (t.status = 0 → t'.status = 0 → g < len / 5 → g < len' / 5 →
      exec (.dec len) s = .next t → exec (.dec len') s' = .next t' →
      (∀ k : Nat, k < 5 → s'.ibufByte (5 * g + k) = s.ibufByte (5 * g + k)) →
      ∀ k : Nat, k < 4 → t'.obufByte (4 * g + k) = t.obufByte (4 * g + k))

/-- R71, R81: issuing `DEC RLEN` on the output of a successful `ENC len`, copied to `IBUF`, completes and returns the original
`len` bytes. -/
def Obligations.DecReturnsWhatEncEncoded : Prop :=
  ∀ (len : Nat) (s t u : State),
    len % 4 = 0 → len ≤ s.caps.ibufBytes → len / 4 * 5 ≤ s.caps.obufBytes → len < 2 ^ 30 →
    exec (.enc len) s = .next t →
    u.caps = s.caps → t.rlen.toNat ≤ u.caps.ibufBytes →
    (∀ a : Nat, a < t.rlen.toNat → u.ibufByte a = t.obufByte a) →
    ∃ v : State, exec (.dec t.rlen.toNat) u = .next v ∧ v.status = 0 ∧ v.rlen.toNat = len ∧
      ∀ a : Nat, a < len → v.obufByte a = s.ibufByte a

/-- R71, R93 (h): every byte of the output of a successful `ENC` is in the alphabet and the first of each group is at most 115,
also where the output is longer than `IBUF`; in any `IBUF` that holds it, it passes through `FLT` with no byte
changed. -/
def Obligations.EncOutputPassesTheFilter : Prop :=
  ∀ (len : Nat) (s t : State),
    len % 4 = 0 → len ≤ s.caps.ibufBytes → len / 4 * 5 ≤ s.caps.obufBytes → len < 2 ^ 30 →
    exec (.enc len) s = .next t →
    (∀ a : Nat, a < t.rlen.toNat → InAlphabet (t.obufByte a)) ∧
    (∀ g : Nat, g < len / 4 → (t.obufByte (5 * g)).toNat ≤ 115) ∧
    (∀ u : State, t.rlen.toNat ≤ u.caps.ibufBytes →
      (∀ a : Nat, a < t.rlen.toNat → u.ibufByte a = t.obufByte a) →
      ∃ v : State, exec (.flt t.rlen.toNat) u = .next v ∧ v.status = 0 ∧ v.rlen = t.rlen ∧
        ∀ a : Nat, v.ibufByte a = u.ibufByte a)

/-- R91: the two-index compaction meets the contract of `FLT`: it ends with the write index `RLEN` and the same kept prefix, its
write index never passes its read index, it leaves `IBUF` alone from `len` on, and its tail is what stood there. -/
def Obligations.TwoIndexFormMeetsTheContract : Prop :=
  ∀ (len : Nat) (s : State), len ≤ s.caps.ibufBytes →
    ∃ t : State, exec (.flt len) s = .next t ∧
      t.rlen = BitVec.ofNat 32 (twoIndexFilter s len).1 ∧
      (∀ a : Nat, a < (twoIndexFilter s len).1 → (twoIndexFilter s len).2.ibufByte a = t.ibufByte a) ∧
      (∀ r : Nat, r ≤ len → (twoIndexFilter s r).1 ≤ r) ∧
      (∀ a : Nat, len ≤ a → (twoIndexFilter s len).2.ibufByte a = t.ibufByte a) ∧
      (∀ a : Nat, (twoIndexFilter s len).1 ≤ a → (twoIndexFilter s len).2.ibufByte a = s.ibufByte a)

/-- R93 (b) to (f): after a successful `FLT len` with result `m`, `m` counts the in-alphabet bytes and is at most `len`, the
kept bytes are in the alphabet, a further `FLT m` completes and changes nothing of them, and where every byte was in
the alphabet nothing changed at all. -/
def Obligations.FilteringIsIdempotent : Prop :=
  ∀ (len : Nat) (s : State), len ≤ s.caps.ibufBytes → len < 2 ^ 30 →
    ∃ t u : State, exec (.flt len) s = .next t ∧ exec (.flt t.rlen.toNat) t = .next u ∧
      t.rlen.toNat = (List.range len).countP (fun a => decide (InAlphabet (s.ibufByte a))) ∧
      t.rlen.toNat ≤ len ∧
      (∀ a : Nat, a < t.rlen.toNat → InAlphabet (t.ibufByte a)) ∧
      u.rlen = t.rlen ∧ (∀ a : Nat, u.ibufByte a = t.ibufByte a) ∧
      ((∀ a : Nat, a < len → InAlphabet (s.ibufByte a)) →
        t.rlen.toNat = len ∧ ∀ a : Nat, t.ibufByte a = s.ibufByte a)

/-- R128 to R131: the host's tail procedure loses nothing. `count` raw bytes padded with zeros are encoded; the host keeps
`encKept count` bytes, puts them at the start of `IBUF`, pads them with `'u'` and decodes; of the result it keeps exactly
`count` bytes, and they are the original ones. -/
def Obligations.PaddedTailRoundTrips : Prop :=
  ∀ (count : Nat) (s t u : State),
    count + encPadding count < 2 ^ 30 → count + encPadding count ≤ s.caps.ibufBytes →
    (count + encPadding count) / 4 * 5 ≤ s.caps.obufBytes →
    (∀ j : Nat, j < encPadding count → s.ibufByte (count + j) = 0) →
    exec (.enc (count + encPadding count)) s = .next t →
    u.caps = s.caps → encKept count + decPadding (encKept count) ≤ u.caps.ibufBytes →
    (∀ a : Nat, a < encKept count → u.ibufByte a = t.obufByte a) →
    (∀ j : Nat, j < decPadding (encKept count) → u.ibufByte (encKept count + j) = padSymbol) →
    ∃ v : State, exec (.dec (encKept count + decPadding (encKept count))) u = .next v ∧ v.status = 0 ∧
      decKept (encKept count) = count ∧
      v.rlen.toNat = decKept (encKept count) + decPadding (encKept count) ∧
      ∀ a : Nat, a < count → v.obufByte a = s.ibufByte a

/-! ## The machine -/

/-- R16, R42, R50: a step whose transaction is the issue of a word executes the command that word decodes to, on the state with
that transaction gone; so does the step after `withFetchWord`. The list of transactions is the model's own (log 3). -/
def Obligations.StepExecutesTheIssuedCommand : Prop :=
  (∀ (s : State) (cw : Word) (rest : List Transaction), s.requests = .writeRegister 0 cw :: rest →
    step s = exec (decode cw) { s with requests := rest }) ∧
  (∀ (s : State) (nbits w : Nat), step (s.withFetchWord nbits w) = exec (decode (BitVec.ofNat 32 w)) s)

/-- R50, R54: the issue of the word of a well-formed command runs that command. R54 gives the words of `ENC`, `DEC` and `FLT`; the
word of an illegal command is the model's own extension of its encoder (DESIGN CHOICE, log 4). -/
def Obligations.StepRunsTheEncodedCommand : Prop :=
  ∀ (s : State) (i : Instr) (rest : List Transaction), i.wellFormed = true →
    step { s with requests := Transaction.issue (encode i) :: rest } = exec i { s with requests := rest }

/-- The model's choice (DESIGN CHOICE, log 3): a step with no transaction waiting answers the same state. It is how the model
says R10's "with no command issued, no state changes"; that there is such an idle step is no rule of the spec. -/
def Obligations.UnitNeverActsOnItsOwn : Prop :=
  ∀ s : State, s.requests = [] → step s = .next s

/-- R23: the host's table. Each transaction has its effect and no other, under its precondition; a buffer access outside the
stated range is refused; the host cannot write `OBUF`, `STATUS` or `RLEN`. (What the command of a `HostIssue` does is the
commands' own statements; what the buffers hold after `Reset` is unspecified, R24.) -/
def Obligations.HostTransactionsFollowTheTable : Prop :=
  ∀ (s : State) (rest : List Transaction),
    (∀ (a : Nat) (b : Byte), a < s.caps.ibufBytes →
      ∃ t : State, step { s with requests := .writeIbuf a b :: rest } = .next t ∧
        t.ibufByte a = b ∧ (∀ a' : Nat, a' ≠ a → t.ibufByte a' = s.ibufByte a') ∧
        t = { s with ibuf := t.ibuf, requests := rest }) ∧
    (∀ a : Nat, a < s.caps.ibufBytes →
      step { s with requests := .readIbuf a :: rest }
        = .next { s with requests := rest, replies := s.replies ++ [.byte (s.ibufByte a)] }) ∧
    (∀ a : Nat, a < s.caps.obufBytes →
      step { s with requests := .readObuf a :: rest }
        = .next { s with requests := rest, replies := s.replies ++ [.byte (s.obufByte a)] }) ∧
    step { s with requests := .readRegister 1 :: rest }
      = .next { s with requests := rest, replies := s.replies ++ [.word s.status] } ∧
    step { s with requests := .readRegister 2 :: rest }
      = .next { s with requests := rest, replies := s.replies ++ [.word s.rlen] } ∧
    (∀ cw : Word, step { s with requests := .writeRegister 0 cw :: rest }
      = exec (decode cw) { s with requests := rest }) ∧
    (∃ t : State, step { s with requests := .reset :: rest } = .next t ∧ t.status = 0 ∧ t.rlen = 0) ∧
    (∀ (a : Nat) (b : Byte), s.caps.ibufBytes ≤ a →
      step { s with requests := .writeIbuf a b :: rest } = .refused (.offsetOutsideIbuf a) ∧
      step { s with requests := .readIbuf a :: rest } = .refused (.offsetOutsideIbuf a)) ∧
    (∀ a : Nat, s.caps.obufBytes ≤ a →
      step { s with requests := .readObuf a :: rest } = .refused (.offsetOutsideObuf a)) ∧
    (∀ (a : Nat) (b : Byte), step { s with requests := .writeObuf a b :: rest } = .refused (.obufIsReadOnly a)) ∧
    (∀ w : Word,
      step { s with requests := .writeRegister 1 w :: rest } = .refused (.registerIsReadOnly 1) ∧
      step { s with requests := .writeRegister 2 w :: rest } = .refused (.registerIsReadOnly 2))

/-- R23, R16, R17, and U7 of 93_implementation_defined.md: a read of `CMD` and an access to a part of a register are no
transaction and are refused, each by a name of its own. That an access to a register number above 2 is refused too is
the model's deduction (DEDUCED, log 6) from R30, which lists the numbers 0, 1, 2; U7 does not name it. -/
def Obligations.OtherMovesAreRefusedByName : Prop :=
  ∀ (s : State) (rest : List Transaction),
    step { s with requests := .readRegister 0 :: rest } = .refused .cmdIsWriteOnly ∧
    (∀ (n : Nat) (w : Word), 2 < n →
      step { s with requests := .writeRegister n w :: rest } = .refused (.noSuchRegister n) ∧
      step { s with requests := .readRegister n :: rest } = .refused (.noSuchRegister n)) ∧
    (∀ n : Nat, step { s with requests := .partialRegister n :: rest } = .refused (.partialRegisterAccess n))

/-- R23, R39, R134: a transaction the table defines always completes, and only such a one does. That a register number above 2
is none of them is the model's deduction from R30 (DEDUCED, log 6). -/
def Obligations.ExactlyTheDefinedTransactionsComplete : Prop :=
  ∀ (s : State) (req : Transaction) (rest : List Transaction), s.requests = req :: rest →
    ((∃ t : State, step s = .next t) ↔ req.definedFor s.caps = true) ∧
    ((∃ r : Refusal, step s = .refused r) ↔ req.definedFor s.caps = false)

/-- R11, R31: who writes what. `OBUF` only `ENC` and `DEC` write, `IBUF` only the host's writes and `FLT`, `RLEN` and `STATUS` only
a command, and `Reset` all of them; no step changes a parameter (R6). -/
def Obligations.OnlyTheListedWritersChangeTheState : Prop :=
  ∀ (s t : State) (req : Transaction) (rest : List Transaction),
    s.requests = req :: rest → step s = .next t →
    t.caps = s.caps ∧ t.requests = rest ∧
    (req ≠ .reset →
      ((∀ (cw : Word) (len : Nat), req = .writeRegister 0 cw → decode cw ≠ .enc len ∧ decode cw ≠ .dec len) →
        t.obuf = s.obuf) ∧
      ((∀ (a : Nat) (b : Byte), req ≠ .writeIbuf a b) →
        (∀ (cw : Word) (len : Nat), req = .writeRegister 0 cw → decode cw ≠ .flt len) → t.ibuf = s.ibuf) ∧
      ((∀ cw : Word, req ≠ .writeRegister 0 cw) → t.rlen = s.rlen ∧ t.status = s.status))

/-- R38, R31, R25, byte by byte: a byte of `IBUF` stays what it is until the host writes that offset, an `FLT` covers it or a reset
comes; a byte of `OBUF` until the result of an `ENC` or a `DEC` covers it or a reset comes. -/
def Obligations.AByteStaysUntilItsNextWriter : Prop :=
  ∀ (s t : State) (req : Transaction) (rest : List Transaction) (a : Nat),
    s.requests = req :: rest → step s = .next t → req ≠ .reset →
    ((∀ b : Byte, req ≠ .writeIbuf a b) →
      (∀ (cw : Word) (len : Nat), req = .writeRegister 0 cw → decode cw = .flt len → len ≤ a) →
      t.ibufByte a = s.ibufByte a) ∧
    ((∀ (cw : Word) (len : Nat), req = .writeRegister 0 cw → decode cw = .enc len ∨ decode cw = .dec len →
        t.rlen.toNat ≤ a) →
      t.obufByte a = s.obufByte a)

/-- R24, R120: the registers after reset are 0, in the state the machine starts from and after `Reset()` at any time, which
leaves the parameters and the host's side as they are. -/
def Obligations.ResetClearsTheRegisters : Prop :=
  (State.reset.status = 0 ∧ State.reset.err = 0 ∧ State.reset.rlen = 0) ∧
  ∀ (s : State) (rest : List Transaction),
    ∃ t : State, step { s with requests := .reset :: rest } = .next t ∧ t.status = 0 ∧ t.err = 0 ∧
      t.rlen = 0 ∧ t.caps = s.caps ∧ t.requests = rest ∧ t.replies = s.replies

/-- The model's own reading of UNSPECIFIED after a reset (log 2): every byte of both buffers is a free byte of its own that was
not drawn before, whatever the buffers held. It holds whatever the free bytes are. -/
def Obligations.ResetDrawsEveryByteAnew : Prop :=
  ∀ (s : State) (rest : List Transaction),
    ∃ t : State, step { s with requests := .reset :: rest } = .next t ∧
      (∀ a : Nat, a < s.caps.ibufBytes → t.ibufByte a = Config.freeByte (s.draws + a)) ∧
      (∀ a : Nat, a < s.caps.obufBytes → t.obufByte a = Config.freeByte (s.draws + s.caps.ibufBytes + a)) ∧
      t.draws = s.draws + s.caps.ibufBytes + s.caps.obufBytes

/-- Every step from every state that satisfies the invariant gives one that does: legal parameters, both buffers in canonical
form and inside their capacities, the reserved status bits 0, `RLEN = 0` after an error, a result that fits its buffer,
fresh free bytes (R6, R12 to R15, R105; log 2). -/
def Obligations.EveryStepKeepsTheInvariant : Prop :=
  ∀ s t : State, s.Inv → step s = .next t → t.Inv

/-- The invariant holds after reset. -/
def Obligations.ResetSatisfiesTheInvariant : Prop := State.reset.Inv
end

