-- ==== Sys2Proof/Laws/Code.lean ====
section
/-! SUPPORT. The small lemmas of the data code: lengths, ranges, and values over the integers. -/

namespace Sys2Proof.Machine

@[simp] theorem weight_zero : weight 0 = 52200625 := rfl
@[simp] theorem weight_one : weight 1 = 614125 := rfl
@[simp] theorem weight_two : weight 2 = 7225 := rfl
@[simp] theorem weight_three : weight 3 = 85 := rfl
@[simp] theorem weight_four : weight 4 = 1 := rfl

/-- The weights are the powers of 85 (R58). -/
theorem weight_eq_pow (k : Nat) (h : k < 5) : weight k = 85 ^ (4 - k) := by
  interval_cases k <;> rfl

/-- A digit is 0 to 84 (R59). -/
theorem digit_lt (V : Word) (k : Nat) : digit V k < 85 := Nat.mod_lt _ (by decide)

@[simp] theorem encGroup_length (V : Word) : (encGroup V).length = 5 := rfl

@[simp] theorem bytesBe32_length (V : Word) : (bytesBe32 V).length = 4 := rfl

/-- The symbol of a digit is `digit + 33` (R57). -/
theorem symbol_toNat {d : Nat} (h : d < 85) : (symbol d).toNat = d + 33 := by
  simp only [symbol, BitVec.toNat_ofNat]; omega

/-- Digits are read back from their symbols. -/
theorem symbol_injective {d e : Nat} (hd : d < 85) (he : e < 85) (h : symbol d = symbol e) : d = e := by
  have := congrArg BitVec.toNat h
  rw [symbol_toNat hd, symbol_toNat he] at this
  omega

/-- The code value of a byte is its value less 33, modulo 2^32 (R62). -/
theorem codeValue_toNat (c : Byte) : (codeValue c).toNat = (c.toNat + 4294967263) % 4294967296 := by
  have := c.isLt
  simp only [codeValue, BitVec.toNat_sub, BitVec.toNat_setWidth, BitVec.toNat_ofNat]
  omega

/-- `keep` is the range test (R65). -/
@[simp] theorem keep_iff (b : Byte) : keep b = true ↔ 33 ≤ b.toNat ∧ b.toNat ≤ 117 := decide_eq_true_iff

/-- Every symbol passes the alphabet test. -/
theorem keep_symbol {d : Nat} (h : d < 85) : keep (symbol d) = true := by
  rw [keep_iff, symbol_toNat h]; omega

/-- The digits as nested quotients by 85. -/
theorem digit_eq_div (V : Word) :
    digit V 0 = V.toNat / 85 / 85 / 85 / 85 % 85 ∧ digit V 1 = V.toNat / 85 / 85 / 85 % 85 ∧
      digit V 2 = V.toNat / 85 / 85 % 85 ∧ digit V 3 = V.toNat / 85 % 85 ∧ digit V 4 = V.toNat % 85 := by
  simp [digit, weight, Nat.div_div_eq_div_mul, Nat.div_one]

/-- The leading digit needs no reduction: the quotient by 85^4 is at most 82 (R61 c). -/
theorem digit_zero_eq (V : Word) : digit V 0 = V.toNat / 85 / 85 / 85 / 85 := by
  have hV := V.isLt
  have h : V.toNat / 52200625 ≤ 82 := by omega
  have e : V.toNat / 85 / 85 / 85 / 85 = V.toNat / 52200625 := by simp only [Nat.div_div_eq_div_mul]
  rw [(digit_eq_div V).1, e]
  omega

/-- Digits 0 to 84 that sum to `V` are the digits of `V`. -/
theorem digits_unique {V : Word} {x0 x1 x2 x3 x4 : Nat} (h0 : x0 < 85) (h1 : x1 < 85) (h2 : x2 < 85)
    (h3 : x3 < 85) (h4 : x4 < 85)
    (h : V.toNat = x0 * 52200625 + x1 * 614125 + x2 * 7225 + x3 * 85 + x4) :
    digit V 0 = x0 ∧ digit V 1 = x1 ∧ digit V 2 = x2 ∧ digit V 3 = x3 ∧ digit V 4 = x4 := by
  obtain ⟨e0, e1, e2, e3, e4⟩ := digit_eq_div V
  have q1 : V.toNat / 85 = x0 * 614125 + x1 * 7225 + x2 * 85 + x3 := by omega
  have q2 : V.toNat / 85 / 85 = x0 * 7225 + x1 * 85 + x2 := by omega
  have q3 : V.toNat / 85 / 85 / 85 = x0 * 85 + x1 := by omega
  have q4 : V.toNat / 85 / 85 / 85 / 85 = x0 := by omega
  rw [e0, e1, e2, e3, e4, q4, q3, q2, q1, h]
  clear e0 e1 e2 e3 e4 q1 q2 q3 q4 h
  omega

/-- The value of four bytes, over the integers (R32). -/
theorem be32_toNat (b0 b1 b2 b3 : Byte) :
    (be32 b0 b1 b2 b3).toNat = b0.toNat * 2 ^ 24 + b1.toNat * 2 ^ 16 + b2.toNat * 2 ^ 8 + b3.toNat := by
  have h0 := b0.isLt
  have h1 := b1.isLt
  have h2 := b2.isLt
  have h3 := b3.isLt
  rw [be32, BitVec.toNat_ofNat, Nat.mod_eq_of_lt]
  omega

/-- A byte of a word, as a number (R8's `w[hi:lo]`). -/
theorem extractByte_toNat (V : Word) (k : Nat) : (V.extractLsb' k 8).toNat = V.toNat / 2 ^ k % 256 := by
  rw [BitVec.extractLsb'_toNat, Nat.shiftRight_eq_div_pow]

/-- Subtracting 33 is adding `2^32 - 33`. -/
theorem codeValue_eq_ofNat (c : Byte) : codeValue c = BitVec.ofNat 32 (c.toNat + 4294967263) := by
  apply BitVec.eq_of_toNat_eq
  rw [codeValue_toNat, BitVec.toNat_ofNat]

/-- The decoder's sum reduced once, at the end (R62). -/
theorem decGroup_eq_ofNat (c0 c1 c2 c3 c4 : Byte) :
    decGroup c0 c1 c2 c3 c4 = BitVec.ofNat 32
      ((c0.toNat + 4294967263) * 52200625 + (c1.toNat + 4294967263) * 614125 + (c2.toNat + 4294967263) * 7225
        + (c3.toNat + 4294967263) * 85 + (c4.toNat + 4294967263) * 1) := by
  unfold decGroup
  rw [codeValue_eq_ofNat, codeValue_eq_ofNat, codeValue_eq_ofNat, codeValue_eq_ofNat, codeValue_eq_ofNat,
    weight_zero, weight_one, weight_two, weight_three, weight_four]
  rw [← BitVec.ofNat_mul, ← BitVec.ofNat_mul, ← BitVec.ofNat_mul, ← BitVec.ofNat_mul, ← BitVec.ofNat_mul,
    ← BitVec.ofNat_add, ← BitVec.ofNat_add, ← BitVec.ofNat_add, ← BitVec.ofNat_add]

end Sys2Proof.Machine
end

