-- ==== Sys2Proof/Laws/Decode.lean ====
section
/-! SUPPORT. The fields of a command word as numbers, and the four ways a word decodes. -/

namespace Sys2Proof

/-- `w[31:30] = (w div 2^30) mod 4` (R8). -/
theorem opField_toNat (cw : Word) : (opField cw).toNat = cw.toNat / 2 ^ 30 % 4 := by
  simp [opField, BitVec.extractLsb'_toNat, Nat.shiftRight_eq_div_pow]

/-- `w[29:0] = w mod 2^30` (R8). -/
theorem lenField_toNat (cw : Word) : (lenField cw).toNat = cw.toNat % 2 ^ 30 := by
  simp [lenField, BitVec.extractLsb'_toNat]

theorem decode_of_op_one {cw : Word} (h : opField cw = 0b01) : decode cw = .enc (lenField cw).toNat := by
  simp [decode, h]

theorem decode_of_op_two {cw : Word} (h : opField cw = 0b10) : decode cw = .dec (lenField cw).toNat := by
  simp [decode, h]

theorem decode_of_op_three {cw : Word} (h : opField cw = 0b11) : decode cw = .flt (lenField cw).toNat := by
  simp [decode, h]

theorem decode_of_op_zero {cw : Word} (h : opField cw = 0b00) : decode cw = .illegal (lenField cw) := by
  simp [decode, h]

/-- A word has one of the four operations. -/
theorem opField_cases (cw : Word) :
    opField cw = 0b00 ∨ opField cw = 0b01 ∨ opField cw = 0b10 ∨ opField cw = 0b11 := by
  have h : ∀ x : BitVec 2, x = 0b00 ∨ x = 0b01 ∨ x = 0b10 ∨ x = 0b11 := by decide
  exact h _

/-- A length below the limit is well formed. -/
theorem lenFits_iff (len : Nat) : lenFits len = true ↔ len < 2 ^ 30 := decide_eq_true_iff

end Sys2Proof
end

