-- ==== Sys2Proof/Laws/Memory.lean ====
section
/-! SUPPORT. The laws of a buffer's cells: what a read gives after a write, and that every write keeps the canonical form and
the capacity. -/

namespace Sys2Proof.Machine

@[simp] theorem Memory.read?_nil (a : Nat) : Memory.read? [] a = none := rfl

/-- A read after a write: the byte written at its offset, and every other offset as before. -/
theorem Memory.read?_write (m : Memory) (a : Nat) (b : Byte) (x : Nat) :
    (m.write a b).read? x = if x = a then some b else m.read? x := by
  induction m with
  | nil => simp [Memory.write, Memory.read?, eq_comm]
  | cons c m ih =>
    simp only [Memory.write]
    split_ifs <;> simp only [Memory.read?, ih] <;> split_ifs <;> first | rfl | omega

/-- A read after a block write: the block's bytes at its offsets, and every other offset as before. -/
theorem Memory.read?_writeAll (m : Memory) (a : Nat) (bs : List Byte) (x : Nat) :
    (m.writeAll a bs).read? x = if a ≤ x ∧ x < a + bs.length then bs[x - a]? else m.read? x := by
  induction bs generalizing m a with
  | nil => simp [Memory.writeAll]
  | cons b bs ih =>
    rw [Memory.writeAll, ih, Memory.read?_write, List.length_cons]
    rcases Nat.lt_trichotomy x a with h | rfl | h
    · rw [if_neg (by omega), if_neg (by omega), if_neg (by omega)]
    · rw [if_neg (by omega), if_pos rfl, if_pos (by omega)]; simp
    · have e : x - a = x - (a + 1) + 1 := by omega
      by_cases hx : x < a + 1 + bs.length
      · rw [if_pos (by omega), if_pos (by omega), e, List.getElem?_cons_succ]
      · rw [if_neg (by omega), if_neg (by omega), if_neg (by omega)]

/-- The first byte of the block at offset `a` is read back there, and so on. -/
theorem Memory.read?_writeAll_inside (m : Memory) (a : Nat) (bs : List Byte) (k : Nat) (h : k < bs.length) :
    (m.writeAll a bs).read? (a + k) = some bs[k] := by
  rw [Memory.read?_writeAll, if_pos (by omega), Nat.add_sub_cancel_left, List.getElem?_eq_getElem h]

theorem Memory.read?_writeAll_outside (m : Memory) (a : Nat) (bs : List Byte) (x : Nat)
    (h : x < a ∨ a + bs.length ≤ x) : (m.writeAll a bs).read? x = m.read? x := by
  rw [Memory.read?_writeAll, if_neg (by omega)]

/-- A cell of a buffer after a write is the one written or was there before. -/
theorem Memory.mem_write {m : Memory} {a : Nat} {b : Byte} {c : Host.Cell} (h : c ∈ m.write a b) :
    c = (a, b) ∨ c ∈ m := by
  induction m with
  | nil => simpa [Memory.write] using h
  | cons d m ih =>
    simp only [Memory.write] at h
    split_ifs at h
    · simpa using h
    · rcases List.mem_cons.1 h with h | h
      · exact .inl h
      · exact .inr (List.mem_cons_of_mem _ h)
    · rcases List.mem_cons.1 h with h | h
      · exact .inr (h ▸ List.mem_cons_self ..)
      · exact (ih h).imp id (List.mem_cons_of_mem _)

/-- A write keeps the canonical form. -/
theorem Memory.wf_write {m : Memory} (a : Nat) (b : Byte) (h : m.wf) : (m.write a b).wf := by
  induction m with
  | nil => simp [Memory.write, Memory.wf]
  | cons c m ih =>
    obtain ⟨hc, hm⟩ := List.pairwise_cons.1 h
    simp only [Memory.write]
    split_ifs with h1 h2
    · refine List.pairwise_cons.2 ⟨fun d hd => ?_, h⟩
      rcases List.mem_cons.1 hd with rfl | hd
      · exact h1
      · exact Nat.lt_trans h1 (hc d hd)
    · exact List.pairwise_cons.2 ⟨fun d hd => h2 ▸ hc d hd, hm⟩
    · refine List.pairwise_cons.2 ⟨fun d hd => ?_, ih hm⟩
      rcases Memory.mem_write hd with rfl | hd
      · show c.1 < a
        omega
      · exact hc d hd

/-- A block write keeps the canonical form. -/
theorem Memory.wf_writeAll {m : Memory} (a : Nat) (bs : List Byte) (h : m.wf) : (m.writeAll a bs).wf := by
  induction bs generalizing m a with
  | nil => exact h
  | cons b bs ih => exact ih (a + 1) (Memory.wf_write a b h)

/-- A write inside the capacity keeps the cells inside it. -/
theorem Memory.within_write {m : Memory} {n a : Nat} (b : Byte) (h : m.within n) (ha : a < n) :
    (m.write a b).within n := fun c hc => by
  rcases Memory.mem_write hc with rfl | hc
  · exact ha
  · exact h c hc

/-- A block write inside the capacity keeps the cells inside it. -/
theorem Memory.within_writeAll {m : Memory} {n a : Nat} {bs : List Byte} (h : m.within n)
    (ha : a + bs.length ≤ n) : (m.writeAll a bs).within n := by
  induction bs generalizing m a with
  | nil => exact h
  | cons b bs ih =>
    rw [List.length_cons] at ha
    exact ih (Memory.within_write b h (by omega)) (by omega)

/-- The group loop writes group `g` at `size * g`: byte `k` of it is read there. -/
theorem read?_writeGroups_inside {size : Nat} {out : Nat → List Byte} (hout : ∀ g, (out g).length = size)
    (n : Nat) (m : Memory) {g k : Nat} (hg : g < n) (hk : k < size) :
    (writeGroups size out n m).read? (size * g + k) = (out g)[k]? := by
  induction n with
  | zero => omega
  | succ n ih =>
    rw [writeGroups]
    rcases Nat.lt_succ_iff_lt_or_eq.1 hg with h | rfl
    · have : size * (g + 1) ≤ size * n := Nat.mul_le_mul_left _ h
      rw [Memory.read?_writeAll_outside _ _ _ _ (.inl (by rw [Nat.mul_succ] at this; omega)), ih h]
    · rw [Memory.read?_writeAll_inside _ _ _ _ (by rw [hout]; exact hk), List.getElem?_eq_getElem]

/-- The group loop leaves every offset from `size * n` on as it was. -/
theorem read?_writeGroups_outside {size : Nat} {out : Nat → List Byte} (hout : ∀ g, (out g).length = size)
    (n : Nat) (m : Memory) {x : Nat} (hx : size * n ≤ x) :
    (writeGroups size out n m).read? x = m.read? x := by
  induction n with
  | zero => rfl
  | succ n ih =>
    rw [Nat.mul_succ] at hx
    rw [writeGroups, Memory.read?_writeAll_outside _ _ _ _ (.inr (by rw [hout]; omega)), ih (by omega)]

/-- The group loop keeps the canonical form. -/
theorem wf_writeGroups {m : Memory} (size : Nat) (out : Nat → List Byte) (n : Nat) (h : m.wf) :
    (writeGroups size out n m).wf := by
  induction n with
  | zero => exact h
  | succ n ih => exact Memory.wf_writeAll _ _ ih

/-- The group loop stays inside a capacity that holds its groups. -/
theorem within_writeGroups {m : Memory} {size cap : Nat} {out : Nat → List Byte}
    (hout : ∀ g, (out g).length = size) (n : Nat) (h : m.within cap) (hn : size * n ≤ cap) :
    (writeGroups size out n m).within cap := by
  induction n with
  | zero => exact h
  | succ n ih =>
    rw [Nat.mul_succ] at hn
    exact Memory.within_writeAll (ih (by omega)) (by rw [hout]; omega)

end Sys2Proof.Machine
end

