-- ==== Sys2Proof/Laws/State.lean ====
section
/-! SUPPORT. One lemma per field per update of State, and what an update does to the reading of a buffer byte. -/

namespace Sys2Proof.Machine

@[simp] theorem State.withIbuf_ibuf (s : State) (m : Memory) : (s.withIbuf m).ibuf = m := rfl
@[simp] theorem State.withIbuf_obuf (s : State) (m : Memory) : (s.withIbuf m).obuf = s.obuf := rfl
@[simp] theorem State.withIbuf_rlen (s : State) (m : Memory) : (s.withIbuf m).rlen = s.rlen := rfl
@[simp] theorem State.withIbuf_status (s : State) (m : Memory) : (s.withIbuf m).status = s.status := rfl
@[simp] theorem State.withIbuf_caps (s : State) (m : Memory) : (s.withIbuf m).caps = s.caps := rfl
@[simp] theorem State.withIbuf_drawBase (s : State) (m : Memory) : (s.withIbuf m).drawBase = s.drawBase := rfl
@[simp] theorem State.withIbuf_draws (s : State) (m : Memory) : (s.withIbuf m).draws = s.draws := rfl
@[simp] theorem State.withIbuf_requests (s : State) (m : Memory) : (s.withIbuf m).requests = s.requests := rfl
@[simp] theorem State.withIbuf_replies (s : State) (m : Memory) : (s.withIbuf m).replies = s.replies := rfl

@[simp] theorem State.withObuf_ibuf (s : State) (m : Memory) : (s.withObuf m).ibuf = s.ibuf := rfl
@[simp] theorem State.withObuf_obuf (s : State) (m : Memory) : (s.withObuf m).obuf = m := rfl
@[simp] theorem State.withObuf_rlen (s : State) (m : Memory) : (s.withObuf m).rlen = s.rlen := rfl
@[simp] theorem State.withObuf_status (s : State) (m : Memory) : (s.withObuf m).status = s.status := rfl
@[simp] theorem State.withObuf_caps (s : State) (m : Memory) : (s.withObuf m).caps = s.caps := rfl
@[simp] theorem State.withObuf_drawBase (s : State) (m : Memory) : (s.withObuf m).drawBase = s.drawBase := rfl
@[simp] theorem State.withObuf_draws (s : State) (m : Memory) : (s.withObuf m).draws = s.draws := rfl
@[simp] theorem State.withObuf_requests (s : State) (m : Memory) : (s.withObuf m).requests = s.requests := rfl
@[simp] theorem State.withObuf_replies (s : State) (m : Memory) : (s.withObuf m).replies = s.replies := rfl

@[simp] theorem State.ended_ibuf (s : State) (rlen status : Word) : (s.ended rlen status).ibuf = s.ibuf := rfl
@[simp] theorem State.ended_obuf (s : State) (rlen status : Word) : (s.ended rlen status).obuf = s.obuf := rfl
@[simp] theorem State.ended_rlen (s : State) (rlen status : Word) : (s.ended rlen status).rlen = rlen := rfl
@[simp] theorem State.ended_status (s : State) (rlen status : Word) : (s.ended rlen status).status = status := rfl
@[simp] theorem State.ended_caps (s : State) (rlen status : Word) : (s.ended rlen status).caps = s.caps := rfl
@[simp] theorem State.ended_drawBase (s : State) (rlen status : Word) : (s.ended rlen status).drawBase = s.drawBase := rfl
@[simp] theorem State.ended_draws (s : State) (rlen status : Word) : (s.ended rlen status).draws = s.draws := rfl
@[simp] theorem State.ended_requests (s : State) (rlen status : Word) : (s.ended rlen status).requests = s.requests := rfl
@[simp] theorem State.ended_replies (s : State) (rlen status : Word) : (s.ended rlen status).replies = s.replies := rfl

@[simp] theorem State.drawn_ibuf (s : State) (n : Nat) : (s.drawn n).ibuf = s.ibuf := rfl
@[simp] theorem State.drawn_obuf (s : State) (n : Nat) : (s.drawn n).obuf = s.obuf := rfl
@[simp] theorem State.drawn_rlen (s : State) (n : Nat) : (s.drawn n).rlen = s.rlen := rfl
@[simp] theorem State.drawn_status (s : State) (n : Nat) : (s.drawn n).status = s.status := rfl
@[simp] theorem State.drawn_caps (s : State) (n : Nat) : (s.drawn n).caps = s.caps := rfl
@[simp] theorem State.drawn_drawBase (s : State) (n : Nat) : (s.drawn n).drawBase = s.drawBase := rfl
@[simp] theorem State.drawn_draws (s : State) (n : Nat) : (s.drawn n).draws = s.draws + n := rfl
@[simp] theorem State.drawn_requests (s : State) (n : Nat) : (s.drawn n).requests = s.requests := rfl
@[simp] theorem State.drawn_replies (s : State) (n : Nat) : (s.drawn n).replies = s.replies := rfl

@[simp] theorem State.withRequests_ibuf (s : State) (ts : List Transaction) : (s.withRequests ts).ibuf = s.ibuf := rfl
@[simp] theorem State.withRequests_obuf (s : State) (ts : List Transaction) : (s.withRequests ts).obuf = s.obuf := rfl
@[simp] theorem State.withRequests_rlen (s : State) (ts : List Transaction) : (s.withRequests ts).rlen = s.rlen := rfl
@[simp] theorem State.withRequests_status (s : State) (ts : List Transaction) : (s.withRequests ts).status = s.status := rfl
@[simp] theorem State.withRequests_caps (s : State) (ts : List Transaction) : (s.withRequests ts).caps = s.caps := rfl
@[simp] theorem State.withRequests_drawBase (s : State) (ts : List Transaction) : (s.withRequests ts).drawBase = s.drawBase := rfl
@[simp] theorem State.withRequests_draws (s : State) (ts : List Transaction) : (s.withRequests ts).draws = s.draws := rfl
@[simp] theorem State.withRequests_requests (s : State) (ts : List Transaction) : (s.withRequests ts).requests = ts := rfl
@[simp] theorem State.withRequests_replies (s : State) (ts : List Transaction) : (s.withRequests ts).replies = s.replies := rfl

@[simp] theorem State.replied_ibuf (s : State) (r : Reply) : (s.replied r).ibuf = s.ibuf := rfl
@[simp] theorem State.replied_obuf (s : State) (r : Reply) : (s.replied r).obuf = s.obuf := rfl
@[simp] theorem State.replied_rlen (s : State) (r : Reply) : (s.replied r).rlen = s.rlen := rfl
@[simp] theorem State.replied_status (s : State) (r : Reply) : (s.replied r).status = s.status := rfl
@[simp] theorem State.replied_caps (s : State) (r : Reply) : (s.replied r).caps = s.caps := rfl
@[simp] theorem State.replied_drawBase (s : State) (r : Reply) : (s.replied r).drawBase = s.drawBase := rfl
@[simp] theorem State.replied_draws (s : State) (r : Reply) : (s.replied r).draws = s.draws := rfl
@[simp] theorem State.replied_requests (s : State) (r : Reply) : (s.replied r).requests = s.requests := rfl
@[simp] theorem State.replied_replies (s : State) (r : Reply) : (s.replied r).replies = s.replies ++ [r] := rfl

@[simp] theorem State.resetUnit_ibuf (s : State) : (s.resetUnit).ibuf = [] := rfl
@[simp] theorem State.resetUnit_obuf (s : State) : (s.resetUnit).obuf = [] := rfl
@[simp] theorem State.resetUnit_rlen (s : State) : (s.resetUnit).rlen = 0 := rfl
@[simp] theorem State.resetUnit_status (s : State) : (s.resetUnit).status = statusOk := rfl
@[simp] theorem State.resetUnit_caps (s : State) : (s.resetUnit).caps = s.caps := rfl
@[simp] theorem State.resetUnit_drawBase (s : State) : (s.resetUnit).drawBase = s.draws := rfl
@[simp] theorem State.resetUnit_draws (s : State) : (s.resetUnit).draws = s.draws + s.caps.ibufBytes + s.caps.obufBytes := rfl
@[simp] theorem State.resetUnit_requests (s : State) : (s.resetUnit).requests = s.requests := rfl
@[simp] theorem State.resetUnit_replies (s : State) : (s.resetUnit).replies = s.replies := rfl

@[simp] theorem State.withIbuf_obufByte (s : State) (m : Memory) (a : Nat) : (s.withIbuf m).obufByte a = s.obufByte a := rfl
@[simp] theorem State.withObuf_ibufByte (s : State) (m : Memory) (a : Nat) : (s.withObuf m).ibufByte a = s.ibufByte a := rfl
@[simp] theorem State.ended_ibufByte (s : State) (rlen status : Word) (a : Nat) : (s.ended rlen status).ibufByte a = s.ibufByte a := rfl
@[simp] theorem State.ended_obufByte (s : State) (rlen status : Word) (a : Nat) : (s.ended rlen status).obufByte a = s.obufByte a := rfl
@[simp] theorem State.drawn_ibufByte (s : State) (n : Nat) (a : Nat) : (s.drawn n).ibufByte a = s.ibufByte a := rfl
@[simp] theorem State.drawn_obufByte (s : State) (n : Nat) (a : Nat) : (s.drawn n).obufByte a = s.obufByte a := rfl
@[simp] theorem State.withRequests_ibufByte (s : State) (ts : List Transaction) (a : Nat) : (s.withRequests ts).ibufByte a = s.ibufByte a := rfl
@[simp] theorem State.withRequests_obufByte (s : State) (ts : List Transaction) (a : Nat) : (s.withRequests ts).obufByte a = s.obufByte a := rfl
@[simp] theorem State.replied_ibufByte (s : State) (r : Reply) (a : Nat) : (s.replied r).ibufByte a = s.ibufByte a := rfl
@[simp] theorem State.replied_obufByte (s : State) (r : Reply) (a : Nat) : (s.replied r).obufByte a = s.obufByte a := rfl

theorem State.withIbuf_ibufByte (s : State) (m : Memory) (a : Nat) :
    (s.withIbuf m).ibufByte a = (m.read? a).getD (Config.freeByte (s.drawBase + a)) := rfl

theorem State.withObuf_obufByte (s : State) (m : Memory) (a : Nat) :
    (s.withObuf m).obufByte a = (m.read? a).getD (Config.freeByte (s.drawBase + s.caps.ibufBytes + a)) := rfl

/-- After a reset `IBUF[a]` is a free byte (R24). -/
@[simp] theorem State.resetUnit_ibufByte (s : State) (a : Nat) :
    s.resetUnit.ibufByte a = Config.freeByte (s.draws + a) := rfl

/-- After a reset `OBUF[a]` is a free byte (R24). -/
@[simp] theorem State.resetUnit_obufByte (s : State) (a : Nat) :
    s.resetUnit.obufByte a = Config.freeByte (s.draws + s.caps.ibufBytes + a) := rfl

@[simp] theorem State.ended_inputBlock (s : State) (rlen status : Word) (len : Nat) :
    (s.ended rlen status).inputBlock len = s.inputBlock len := rfl

@[simp] theorem State.inputBlock_length (s : State) (len : Nat) : (s.inputBlock len).length = len := by
  simp [State.inputBlock]

@[simp] theorem State.freeBytes_length (s : State) (n : Nat) : (s.freeBytes n).length = n := by
  simp [State.freeBytes]

end Sys2Proof.Machine
end

