-- ==== Sys2Proof/Laws/Exec.lean ====
section
/-! SUPPORT. What each command, each transaction and one step can do, said once. -/

namespace Sys2Proof.Machine

/-! ## The checks -/

/-- The check of a group command passes exactly for whole groups that fit both buffers (R102, R103). -/
theorem groupCommandError_eq_none {gin gout len : Nat} {c : Capacities} :
    groupCommandError gin gout len c = none
      ↔ len % gin = 0 ∧ len ≤ c.ibufBytes ∧ len / gin * gout ≤ c.obufBytes := by
  unfold groupCommandError; split_ifs <;> simp_all

/-- `ERR_ALIGN` wins over `ERR_RANGE` (R104). -/
theorem groupCommandError_align {gin gout len : Nat} {c : Capacities} (h : len % gin ≠ 0) :
    groupCommandError gin gout len c = some .align := if_pos h

theorem groupCommandError_range {gin gout len : Nat} {c : Capacities} (h : len % gin = 0)
    (hr : len > c.ibufBytes ∨ len / gin * gout > c.obufBytes) :
    groupCommandError gin gout len c = some .range := by
  unfold groupCommandError; split_ifs <;> simp_all

theorem filterCommandError_eq_none {len : Nat} {c : Capacities} :
    filterCommandError len c = none ↔ len ≤ c.ibufBytes := by
  simp [filterCommandError]

theorem filterCommandError_range {len : Nat} {c : Capacities} (h : len > c.ibufBytes) :
    filterCommandError len c = some .range := if_pos h

/-! ## The commands -/

/-- `ENC` of a whole block that fits (R70). -/
theorem execEnc_ok {len : Nat} {s : State} (h : groupCommandError 4 5 len s.caps = none) :
    execEnc len s = .next ((s.withObuf (s.encoded (len / 4))).ended (BitVec.ofNat 32 (5 * (len / 4))) statusOk) := by
  simp [execEnc, h, complete]

theorem execEnc_err {len : Nat} {s : State} {e : ErrCode} (h : groupCommandError 4 5 len s.caps = some e) :
    execEnc len s = .next (s.ended 0 (statusOf e)) := by
  simp [execEnc, h, raiseErr]

/-- `DEC` of a whole block that fits (R80). -/
theorem execDec_ok {len : Nat} {s : State} (h : groupCommandError 5 4 len s.caps = none) :
    execDec len s = .next ((s.withObuf (s.decoded (len / 5))).ended (BitVec.ofNat 32 (4 * (len / 5))) statusOk) := by
  simp [execDec, h, complete]

theorem execDec_err {len : Nat} {s : State} {e : ErrCode} (h : groupCommandError 5 4 len s.caps = some e) :
    execDec len s = .next (s.ended 0 (statusOf e)) := by
  simp [execDec, h, raiseErr]

/-- `FLT` of a block that fits (R90). -/
theorem execFlt_ok {len : Nat} {s : State} (h : len ≤ s.caps.ibufBytes) :
    execFlt len s = .next
      (((s.withIbuf (s.filtered len)).drawn (len - (s.keptBytes len).length)).ended
        (BitVec.ofNat 32 (s.keptBytes len).length) statusOk) := by
  simp [execFlt, filterCommandError_eq_none.2 h, complete]

theorem execFlt_err {len : Nat} {s : State} (h : len > s.caps.ibufBytes) :
    execFlt len s = .next (s.ended 0 (statusOf .range)) := by
  simp [execFlt, filterCommandError_range h, raiseErr]

/-- Everything a command can do: end in an error with `RLEN` and `STATUS` written and nothing else, or complete. -/
theorem exec_cases (i : Instr) (s : State) :
    (∃ e : ErrCode, exec i s = .next (s.ended 0 (statusOf e))) ∨
    (∃ len, i = .enc len ∧ groupCommandError 4 5 len s.caps = none ∧
      exec i s = .next ((s.withObuf (s.encoded (len / 4))).ended (BitVec.ofNat 32 (5 * (len / 4))) statusOk)) ∨
    (∃ len, i = .dec len ∧ groupCommandError 5 4 len s.caps = none ∧
      exec i s = .next ((s.withObuf (s.decoded (len / 5))).ended (BitVec.ofNat 32 (4 * (len / 5))) statusOk)) ∨
    (∃ len, i = .flt len ∧ len ≤ s.caps.ibufBytes ∧
      exec i s = .next
        (((s.withIbuf (s.filtered len)).drawn (len - (s.keptBytes len).length)).ended
          (BitVec.ofNat 32 (s.keptBytes len).length) statusOk)) := by
  cases i with
  | enc len =>
    cases h : groupCommandError 4 5 len s.caps with
    | none => exact .inr (.inl ⟨len, rfl, h, execEnc_ok h⟩)
    | some e => exact .inl ⟨e, execEnc_err h⟩
  | dec len =>
    cases h : groupCommandError 5 4 len s.caps with
    | none => exact .inr (.inr (.inl ⟨len, rfl, h, execDec_ok h⟩))
    | some e => exact .inl ⟨e, execDec_err h⟩
  | flt len =>
    rcases Nat.lt_or_ge s.caps.ibufBytes len with h | h
    · exact .inl ⟨.range, execFlt_err h⟩
    · exact .inr (.inr (.inr ⟨len, rfl, h, execFlt_ok h⟩))
  | illegal low => exact .inl ⟨.op, rfl⟩

/-! ## The result blocks, byte by byte -/

/-- Byte `k` of group `g` of an encoded block (R70). -/
theorem State.encoded_inside (s : State) {n g k : Nat} (hg : g < n) (hk : k < 5) :
    (s.encoded n).read? (5 * g + k) = (encGroup (s.rawGroup g))[k]? :=
  read?_writeGroups_inside (out := fun g => encGroup (s.rawGroup g)) (fun _ => encGroup_length _) n s.obuf hg hk

theorem State.encoded_outside (s : State) {n a : Nat} (h : 5 * n ≤ a) : (s.encoded n).read? a = s.obuf.read? a :=
  read?_writeGroups_outside (out := fun g => encGroup (s.rawGroup g)) (fun _ => encGroup_length _) n s.obuf h

/-- Byte `k` of group `g` of a decoded block (R80). -/
theorem State.decoded_inside (s : State) {n g k : Nat} (hg : g < n) (hk : k < 4) :
    (s.decoded n).read? (4 * g + k) = (bytesBe32 (s.encodedGroup g))[k]? :=
  read?_writeGroups_inside (out := fun g => bytesBe32 (s.encodedGroup g)) (fun _ => bytesBe32_length _) n s.obuf hg hk

theorem State.decoded_outside (s : State) {n a : Nat} (h : 4 * n ≤ a) : (s.decoded n).read? a = s.obuf.read? a :=
  read?_writeGroups_outside (out := fun g => bytesBe32 (s.encodedGroup g)) (fun _ => bytesBe32_length _) n s.obuf h

/-- No more bytes are kept than there are. -/
theorem State.keptBytes_length_le (s : State) (len : Nat) : (s.keptBytes len).length ≤ len := by
  simpa [State.keptBytes] using List.length_filter_le keep (s.inputBlock len)

/-- The filtered buffer: the kept bytes (R90), then free bytes up to `len` (R92), then what stood there (R25). -/
theorem State.filtered_read? (s : State) (len a : Nat) :
    (s.filtered len).read? a =
      if a < (s.keptBytes len).length then (s.keptBytes len)[a]?
      else if a < len then some (Config.freeByte (s.draws + (a - (s.keptBytes len).length)))
      else s.ibuf.read? a := by
  have hle := s.keptBytes_length_le len
  rw [State.filtered, Memory.read?_writeAll, Memory.read?_writeAll, State.freeBytes_length]
  by_cases h1 : a < (s.keptBytes len).length
  · rw [if_neg (by omega), if_pos (by omega), if_pos h1, Nat.sub_zero]
  · rw [if_neg h1]
    by_cases h2 : a < len
    · rw [if_pos (by omega), if_pos h2, State.freeBytes, List.getElem?_map,
        List.getElem?_range (by omega)]
      rfl
    · rw [if_neg (by omega), if_neg (by omega), if_neg h2]

/-! ## The results, read through the state -/

/-- Byte `k` of group `g` that `ENC` wrote. -/
theorem State.encoded_obufByte (s : State) (rlen status : Word) {n g k : Nat} (hg : g < n) (hk : k < 5) :
    ((s.withObuf (s.encoded n)).ended rlen status).obufByte (5 * g + k) = symbol (digit (s.rawGroup g) k) := by
  rw [State.ended_obufByte, State.withObuf_obufByte, s.encoded_inside hg hk]
  interval_cases k <;> rfl

/-- `ENC` leaves the bytes after its result as they were. -/
theorem State.encoded_obufByte_after (s : State) (rlen status : Word) {n a : Nat} (h : 5 * n ≤ a) :
    ((s.withObuf (s.encoded n)).ended rlen status).obufByte a = s.obufByte a := by
  rw [State.ended_obufByte, State.withObuf_obufByte, s.encoded_outside h]
  rfl

/-- Byte `k` of group `g` that `DEC` wrote. -/
theorem State.decoded_obufByte (s : State) (rlen status : Word) {n g k : Nat} (hg : g < n) (hk : k < 4) :
    ((s.withObuf (s.decoded n)).ended rlen status).obufByte (4 * g + k)
      = ((bytesBe32 (s.encodedGroup g))[k]?).getD 0 := by
  rw [State.ended_obufByte, State.withObuf_obufByte, s.decoded_inside hg hk]
  interval_cases k <;> rfl

/-- `DEC` leaves the bytes after its result as they were. -/
theorem State.decoded_obufByte_after (s : State) (rlen status : Word) {n a : Nat} (h : 4 * n ≤ a) :
    ((s.withObuf (s.decoded n)).ended rlen status).obufByte a = s.obufByte a := by
  rw [State.ended_obufByte, State.withObuf_obufByte, s.decoded_outside h]
  rfl

/-- What `IBUF[a]` is after `FLT len`. -/
theorem State.filtered_ibufByte (s : State) (len n a : Nat) (rlen status : Word) :
    (((s.withIbuf (s.filtered len)).drawn n).ended rlen status).ibufByte a =
      if h : a < (s.keptBytes len).length then (s.keptBytes len)[a]
      else if a < len then Config.freeByte (s.draws + (a - (s.keptBytes len).length))
      else s.ibufByte a := by
  rw [State.ended_ibufByte, State.drawn_ibufByte, State.withIbuf_ibufByte, State.filtered_read?]
  split_ifs with h1 h2
  · rw [List.getElem?_eq_getElem h1]
    rfl
  · rfl
  · rfl

/-- A byte of the input block is the byte of `IBUF`. -/
theorem State.inputBlock_getElem (s : State) (len i : Nat) (h : i < (s.inputBlock len).length) :
    (s.inputBlock len)[i] = s.ibufByte i := by
  simp [State.inputBlock]

/-- One more byte scanned: it is appended if it is in the alphabet. -/
theorem State.keptBytes_succ (s : State) (r : Nat) :
    s.keptBytes (r + 1) = s.keptBytes r ++ (if keep (s.ibufByte r) then [s.ibufByte r] else []) := by
  simp [State.keptBytes, State.inputBlock, List.range_succ, List.filter_append, List.filter_singleton]

/-! ## The machine -/

/-- One step: nothing without a transaction, else the first transaction, on the state without it (R10, R38). -/
theorem step_cons {s : State} {req : Transaction} {rest : List Transaction} (h : s.requests = req :: rest) :
    step s = perform req (s.withRequests rest) := by
  simp [step, h]

theorem step_nil {s : State} (h : s.requests = []) : step s = .next s := by
  simp [step, h]

/-- Everything a transaction that completes can do (R23). -/
theorem perform_cases {req : Transaction} {s t : State} (h : perform req s = .next t) :
    (∃ a b, req = .writeIbuf a b ∧ a < s.caps.ibufBytes ∧ t = s.withIbuf (s.ibuf.write a b)) ∨
    (∃ r, (∀ a b, req ≠ .writeIbuf a b) ∧ (∀ n w, req ≠ .writeRegister n w) ∧ req ≠ .reset ∧ t = s.replied r) ∨
    (∃ cw, req = .writeRegister 0 cw ∧ exec (decode cw) s = .next t) ∨
    (req = .reset ∧ t = s.resetUnit) := by
  cases req with
  | writeIbuf a b =>
    simp only [perform, hostWriteIbuf] at h
    split_ifs at h with ha
    exact .inl ⟨a, b, rfl, ha, by simpa using h.symm⟩
  | readIbuf a =>
    simp only [perform, hostReadIbuf] at h
    split_ifs at h
    exact .inr (.inl ⟨_, by simp, by simp, by simp, by simpa using h.symm⟩)
  | readObuf a =>
    simp only [perform, hostReadObuf] at h
    split_ifs at h
    exact .inr (.inl ⟨_, by simp, by simp, by simp, by simpa using h.symm⟩)
  | writeObuf a b => simp [perform, hostWriteObuf] at h
  | writeRegister n w =>
    simp only [perform, hostWriteRegister] at h
    split_ifs at h with hn
    exact .inr (.inr (.inl ⟨w, by rw [hn], h⟩))
  | readRegister n =>
    simp only [perform, hostReadRegister] at h
    split_ifs at h <;> exact .inr (.inl ⟨_, by simp, by simp, by simp, by simpa using h.symm⟩)
  | partialRegister n => simp [perform, hostPartialRegister] at h
  | reset => exact .inr (.inr (.inr ⟨rfl, by simpa [perform, hostReset] using h.symm⟩))

end Sys2Proof.Machine
end

