-- ==== Sys2Proof/Laws/PerInstr.lean ====
section
/-! SUPPORT. The statements made per command: its word carries its row's bits of spec/opcode_table.json. -/

namespace Sys2Proof

/-- The "match" of the command's row in spec/opcode_table.json, as a number (its "mask" is `0xC0000000`). -/
def Instr.tableMatch : Instr → Nat
  | .enc _ => 0x40000000
  | .dec _ => 0x80000000
  | .flt _ => 0xC0000000
  | .illegal _ => 0x00000000

/-- The low 30 bits of a command's word. -/
def Instr.lowBits : Instr → Nat
  | .enc len => len
  | .dec len => len
  | .flt len => len
  | .illegal low => low.toNat

/-- The word of a well-formed command is its row's match plus its low bits, which stay below the mask. -/
def Laws.TableRow.Statement (i : Instr) : Prop :=
  i.wellFormed = true → i.lowBits < 2 ^ 30 ∧ (encode i).toNat = i.tableMatch + i.lowBits

theorem Laws.TableRow.enc (len : Nat) : Laws.TableRow.Statement (.enc len) := fun h => by
  have h := (lenFits_iff len).1 h
  simp only [encode, Instr.tableMatch, Instr.lowBits, BitVec.toNat_add, BitVec.toNat_ofNat]
  omega

theorem Laws.TableRow.dec (len : Nat) : Laws.TableRow.Statement (.dec len) := fun h => by
  have h := (lenFits_iff len).1 h
  simp only [encode, Instr.tableMatch, Instr.lowBits, BitVec.toNat_add, BitVec.toNat_ofNat]
  omega

theorem Laws.TableRow.flt (len : Nat) : Laws.TableRow.Statement (.flt len) := fun h => by
  have h := (lenFits_iff len).1 h
  simp only [encode, Instr.tableMatch, Instr.lowBits, BitVec.toNat_add, BitVec.toNat_ofNat]
  omega

theorem Laws.TableRow.illegal (low : BitVec 30) : Laws.TableRow.Statement (.illegal low) := fun _ => by
  have := low.isLt
  simp only [encode, Instr.tableMatch, Instr.lowBits, BitVec.toNat_setWidth]
  omega

end Sys2Proof
end

