-- ==== Sys2Proof/Tests/Slice0.lean ====
section
/-! SUPPORT. Tests of one step each, their expected values from 95_test_vectors.md, the smoke test of `wellFormed`, and for
every statement with hypotheses a witness that meets them. -/

namespace Sys2Proof.Tests

open Sys2Proof.Machine

/-! ## Helpers -/

/-- The state after reset with these bytes in `IBUF` from offset 0. -/
def withInput (bs : List Byte) : State := { State.reset with ibuf := Memory.writeAll [] 0 bs }

/-- The same in a configuration of these capacities. -/
def withCaps (ibufBytes obufBytes : Nat) (s : State) : State :=
  { s with caps := { ibufBytes := ibufBytes, obufBytes := obufBytes } }

/-- The state an outcome gives, `State.reset` where it gives none. -/
def after : Host.Outcome State Fault Refusal → State
  | .next s => s
  | .fault _ => State.reset
  | .refused _ => State.reset

/-- The first `n` bytes of `OBUF`. -/
def out (n : Nat) (s : State) : List Byte := (List.range n).map s.obufByte

/-- The first `n` bytes of `IBUF`. -/
def inp (n : Nat) (s : State) : List Byte := (List.range n).map s.ibufByte

/-- Which refusal an outcome is. -/
def refusal : Host.Outcome State Fault Refusal → Option Refusal
  | .next _ => none
  | .fault _ => none
  | .refused r => some r

/-! ## WellFormed: an ill-formed term for each check -/

theorem test_wellFormed_refuses_long_enc : (Instr.enc 1073741824).wellFormed = false := by decide
theorem test_wellFormed_refuses_long_dec : (Instr.dec 1073741824).wellFormed = false := by decide
theorem test_wellFormed_refuses_long_flt : (Instr.flt 1073741824).wellFormed = false := by decide
theorem test_wellFormed_takes_the_longest : (Instr.flt 1073741823).wellFormed = true := by decide

/-! ## Decode: each row's word written out from R50's pattern, `oo` and thirty `l` -/

theorem test_decode_enc_4 : decode 0b01000000000000000000000000000100#32 = .enc 4 := by decide
theorem test_decode_dec_30 : decode 0b10000000000000000000000000011110#32 = .dec 30 := by decide
theorem test_decode_flt_33 : decode 0b11000000000000000000000000100001#32 = .flt 33 := by decide
theorem test_decode_illegal_4 : decode 0b00000000000000000000000000000100#32 = .illegal 4 := by decide
theorem test_decode_enc_longest : decode 0b01111111111111111111111111111111#32 = .enc 1073741823 := by decide
theorem test_decode_illegal_longest :
    decode 0b00111111111111111111111111111111#32 = .illegal 0b111111111111111111111111111111#30 := by decide

/-- Decode refuses, by name, what is no command word. -/
theorem test_decodeBits_refuses :
    decodeBits 64 0 = .error (.longerThanOneWord 64) ∧ decodeBits 8 256 = .error (.bitsAboveTheTop 8) := ⟨rfl, rfl⟩

/-- The opcode table's four match words. -/
theorem test_decodeTableWord :
    decodeTableWord 32 0x40000000 = some (.enc 0) ∧ decodeTableWord 32 0x80000000 = some (.dec 0) ∧
      decodeTableWord 32 0xC0000000 = some (.flt 0) ∧ decodeTableWord 32 0 = some (.illegal 0) := by decide

/-! ## The data code (95_test_vectors.md 2.1, 2.2) -/

theorem test_encGroup_byte_order : encGroup (be32 0x12 0x34 0x56 0x78) = [0x26, 0x69, 0x3C, 0x58, 0x36] := by decide
theorem test_encGroup_largest : encGroup (be32 0xFF 0xFF 0xFF 0xFF) = [0x73, 0x38, 0x57, 0x2D, 0x21] := by decide
theorem test_decGroup_wraps : bytesBe32 (decGroup 0x75 0x75 0x75 0x75 0x75) = [0x08, 0x78, 0x0E, 0xC4] := by decide
theorem test_decGroup_unsigned_bytes : bytesBe32 (decGroup 0xFF 0xFF 0xFF 0xFF 0xFF) = [0xBA, 0xF4, 0x27, 0x06] := by
  decide

/-! ## One step of each command -/

/-- 95_test_vectors.md P1: `ENC 8` on "Man sure". -/
theorem test_enc_two_groups :
    let t := after (step ((withInput [0x4D, 0x61, 0x6E, 0x20, 0x73, 0x75, 0x72, 0x65]).withFetchWord 32 0x40000008))
    out 10 t = [0x39, 0x6A, 0x71, 0x6F, 0x5E, 0x46, 0x2A, 0x32, 0x4D, 0x37] ∧ t.rlen = 10 ∧ t.status = 0 := by decide

/-- 2.4: `ENC 38` is `ERR_ALIGN`, not `ERR_RANGE`. -/
theorem test_enc_align_before_range :
    step (State.reset.withFetchWord 32 0x40000026) = .next { State.reset with status := 2 } := by rfl

/-- P4: `DEC 10` on a line feed and padding, out of the alphabet in its fourth byte. -/
theorem test_dec_out_of_alphabet :
    let t := after (step ((withInput [0x39, 0x6A, 0x71, 0x0A, 0x6F, 0x5E, 0x75, 0x75, 0x75, 0x75]).withFetchWord
      32 0x8000000A))
    out 8 t = [0x4D, 0x61, 0x4C, 0xA8, 0xC0, 0xE8, 0x22, 0xDD] ∧ t.rlen = 8 ∧ t.status = 0 := by decide

/-- 2.4, last paragraph: with `OBUF_BYTES = 20`, `DEC 30` does not fit and `DEC 25` does. -/
theorem test_dec_result_range :
    (after (execDec 30 (withCaps 32 20 State.reset))).status = 3 ∧
      (after (execDec 25 (withCaps 32 20 State.reset))).status = 0 := by decide

/-- 2.3: the four boundary values of the alphabet. -/
theorem test_flt_boundaries :
    let t := after (step ((withInput [0x20, 0x21, 0x75, 0x76]).withFetchWord 32 0xC0000004))
    inp 2 t = [0x21, 0x75] ∧ t.rlen = 2 ∧ t.status = 0 := by decide

/-- 42_filter.md R96; the byte at `len` is unchanged. -/
theorem test_flt_worked_example :
    let t := after (execFlt 9 (withInput [0x20, 0x39, 0x6A, 0x20, 0x71, 0x6F, 0x5E, 0x0D, 0x0A, 0x0B]))
    inp 5 t = [0x39, 0x6A, 0x71, 0x6F, 0x5E] ∧ t.ibufByte 9 = 0x0B ∧ t.rlen = 5 := by decide

/-- 2.4: an illegal word, its low bits all ones. -/
theorem test_illegal_word :
    step (State.reset.withFetchWord 32 0x3FFFFFFF) = .next { State.reset with status := 1 } := by rfl

/-! ## The host's transactions -/

theorem test_write_last_offset :
    (after (perform (.writeIbuf 31 0xA5) State.reset)).ibufByte 31 = 0xA5 := by decide
theorem test_write_beyond_capacity :
    refusal (perform (.writeIbuf 32 0xA5) State.reset) = some (.offsetOutsideIbuf 32) := by decide
theorem test_read_rlen_replies :
    (after (perform Transaction.readRlen { State.reset with rlen := 7 })).replies = [.word 7] := by decide
theorem test_memory_keeps_order :
    Memory.write (Memory.write (Memory.write [] 5 1) 2 2) 5 3 = [(2, 2), (5, 3)] := by decide

/-! ## Witnesses: concrete states and operands that meet each statement's hypotheses -/

/-- "Man " in `IBUF`. -/
def man : State := withInput [0x4D, 0x61, 0x6E, 0x20]

/-- After `ENC 4` on it. -/
def manEncoded : State := after (execEnc 4 man)

/-- The encoded bytes copied to `IBUF`. -/
def manCopied : State := withInput [0x39, 0x6A, 0x71, 0x6F, 0x5E]

theorem exec_enc_man : exec (.enc 4) man = .next manEncoded := rfl

theorem witness_DecodeAndEncodeAreInverse :
    (Instr.enc 0).wellFormed ∧ (Instr.dec 1073741823).wellFormed ∧ (Instr.flt 7).wellFormed ∧
      (Instr.illegal 0x3FFFFFFF#30).wellFormed := by decide

theorem witness_EveryWordIsClassifiedByItsOpField :
    (0x7FFFFFFF#32).toNat / 2 ^ 30 % 4 = 1 ∧ (0x80000000#32).toNat / 2 ^ 30 % 4 = 2 ∧
      (0xFFFFFFFF#32).toNat / 2 ^ 30 % 4 = 3 ∧ (0x3FFFFFFF#32).toNat / 2 ^ 30 % 4 = 0 ∧ 1073741823 < 2 ^ 30 := by decide

theorem witness_DecoderFollowsItsMatchAndMask :
    0x7FFFFFFF#32 &&& 0xC0000000#32 = 0x40000000#32 ∧ 0x80000005#32 &&& 0xC0000000#32 = 0x80000000#32 ∧
      0xFFFFFFFF#32 &&& 0xC0000000#32 = 0xC0000000#32 ∧ 0x3FFFFFFF#32 &&& 0xC0000000#32 = 0x00000000#32 ∧
      1073741823 ≤ 2 ^ 30 - 1 := by decide

/-- `"s8W-!"`, whose sum is exactly 2^32 - 1. -/
theorem witness_DecGroupIsTheWeightedSum :
    (∀ c ∈ [0x73#8, 0x38#8, 0x57#8, 0x2D#8, 0x21#8], InAlphabet c) ∧
      groupSum 0x73 0x38 0x57 0x2D 0x21 ≤ 2 ^ 32 - 1 := by decide

theorem witness_DecodingAnEncodedGroupGivesItBack :
    encGroup 0xFFFFFFFF#32 = [0x73, 0x38, 0x57, 0x2D, 0x21] := by decide

/-- `"s8W-!"` is canonical. -/
theorem witness_CanonicalGroups_canonical : Canonical [0x73, 0x38, 0x57, 0x2D, 0x21] := ⟨0xFFFFFFFF#32, by decide⟩

/-- `"s8W-"` followed by a double quote is in the alphabet and not canonical: its sum is 2^32. -/
theorem witness_CanonicalGroups_not_canonical :
    (∀ c ∈ [0x73#8, 0x38#8, 0x57#8, 0x2D#8, 0x22#8], InAlphabet c) ∧
      ¬ Canonical [0x73, 0x38, 0x57, 0x2D, 0x22] := by
  refine ⟨by decide, fun ⟨V, hV⟩ => ?_⟩
  simp only [encGroup, List.cons.injEq] at hV
  have key : ∀ k d : Nat, d < 85 → symbol (digit V k) = symbol d → digit V k = d := fun k d hd h =>
    symbol_injective (digit_lt V k) hd h
  have h0 := key 0 82 (by decide) hV.1
  have h1 := key 1 23 (by decide) hV.2.1
  have h2 := key 2 54 (by decide) hV.2.2.1
  have h3 := key 3 12 (by decide) hV.2.2.2.1
  have h4 := key 4 1 (by decide) hV.2.2.2.2.1
  obtain ⟨-, e1, e2, e3, e4⟩ := digit_eq_div V
  have := V.isLt
  rw [digit_zero_eq] at h0
  omega

theorem witness_EncEncodesTheBlock :
    6 % 4 ≠ 0 ∧ (36 % 4 = 0 ∧ 36 > State.reset.caps.ibufBytes) ∧
      (20 % 4 = 0 ∧ 20 / 4 * 5 > (withCaps 32 20 State.reset).caps.obufBytes) ∧
      (32 % 4 = 0 ∧ 32 ≤ State.reset.caps.ibufBytes ∧ 32 / 4 * 5 ≤ State.reset.caps.obufBytes ∧ 32 < 2 ^ 30) := by decide

theorem witness_DecDecodesTheBlock :
    4 % 5 ≠ 0 ∧ (35 % 5 = 0 ∧ 35 > State.reset.caps.ibufBytes) ∧
      (30 % 5 = 0 ∧ 30 / 5 * 4 > (withCaps 32 20 State.reset).caps.obufBytes) ∧
      (25 % 5 = 0 ∧ 25 ≤ (withCaps 32 20 State.reset).caps.ibufBytes ∧
        25 / 5 * 4 ≤ (withCaps 32 20 State.reset).caps.obufBytes ∧ 25 < 2 ^ 30) := by decide

theorem witness_FltCompactsTheBlock :
    33 > State.reset.caps.ibufBytes ∧ 32 ≤ State.reset.caps.ibufBytes ∧ 32 < 2 ^ 30 := by decide

theorem witness_FltTailBytesAreFreshFreeBytes :
    let t := after (execFlt 4 (withInput [0x20, 0x21, 0x75, 0x76]))
    4 ≤ State.reset.caps.ibufBytes ∧ t.rlen.toNat ≤ 2 ∧ 2 < 4 ∧ t.rlen.toNat ≤ 3 ∧ 3 < 4 := by decide

theorem witness_IllegalWordRaisesErrOp : (0x3FFFFFFF#32).toNat / 2 ^ 30 = 0 := by decide

theorem witness_ACommandReportsTheFirstErrorThatApplies : (withCaps 4 40 State.reset).caps.ibufBytes = 4 := rfl

/-- One command that completes, one that ends in error, and an `FLT`. -/
theorem witness_ACommandChangesOnlyWhatItsRuleNames :
    (Instr.enc 4).wellFormed = true ∧ exec (.enc 4) man = .next manEncoded ∧ manEncoded.rlen.toNat ≤ 5 ∧
      (∃ t, exec (.enc 6) man = .next t ∧ t.status ≠ 0) ∧
      (∃ t, exec (.flt 4) man = .next t ∧ (Instr.flt 4).wellFormed = true) :=
  ⟨by decide, rfl, by decide, ⟨_, rfl, by decide⟩, _, rfl, by decide⟩

/-- `s` with another `OBUF`, `RLEN` and `STATUS`, and another byte at offset `a` of `IBUF`. -/
def differing (s : State) (a : Nat) : State :=
  { s with obuf := [(0, 1)], rlen := 9, status := 3, ibuf := s.ibuf.write a 0 }

/-- A state that differs in everything but the bytes read: four for `ENC` and `FLT`, five for `DEC`. -/
theorem witness_ResultDependsOnlyOnCommandAndIbuf :
    ((differing man 4).caps = man.caps ∧ ∀ i ∈ [Instr.enc 4, Instr.flt 4], ∀ len a : Nat,
      i = .enc len ∨ i = .dec len ∨ i = .flt len → a < len → (differing man 4).ibufByte a = man.ibufByte a) ∧
    ((differing manCopied 5).caps = manCopied.caps ∧ ∀ len a : Nat,
      Instr.dec 5 = .enc len ∨ Instr.dec 5 = .dec len ∨ Instr.dec 5 = .flt len → a < len →
        (differing manCopied 5).ibufByte a = manCopied.ibufByte a) := by
  have h4 : ∀ a : Nat, a < 4 → (differing man 4).ibufByte a = man.ibufByte a := by decide
  have h5 : ∀ a : Nat, a < 5 → (differing manCopied 5).ibufByte a = manCopied.ibufByte a := by decide
  refine ⟨⟨rfl, fun i hi len a h ha => h4 a ?_⟩, rfl, fun len a h ha => h5 a ?_⟩
  · simp only [List.mem_cons, List.not_mem_nil, or_false] at hi
    rcases hi with rfl | rfl <;> simp at h <;> omega
  · simp at h; omega

/-- Group 0 of one block and of a longer one, then group 0 of two encoded blocks. -/
theorem witness_GroupsAreIndependent :
    let s' := withInput [0x4D, 0x61, 0x6E, 0x20, 0, 0, 0, 0]
    let d' := withInput [0x39, 0x6A, 0x71, 0x6F, 0x5E, 0, 0, 0, 0, 0]
    (exec (.enc 4) man = .next manEncoded ∧ exec (.enc 8) s' = .next (after (execEnc 8 s')) ∧
      manEncoded.status = 0 ∧ (after (execEnc 8 s')).status = 0 ∧ 0 < 4 / 4 ∧ 0 < 8 / 4 ∧
      ∀ k : Nat, k < 4 → s'.ibufByte (4 * 0 + k) = man.ibufByte (4 * 0 + k)) ∧
    (exec (.dec 5) manCopied = .next (after (execDec 5 manCopied)) ∧ exec (.dec 10) d' = .next (after (execDec 10 d')) ∧
      (after (execDec 5 manCopied)).status = 0 ∧ (after (execDec 10 d')).status = 0 ∧ 0 < 5 / 5 ∧ 0 < 10 / 5 ∧
      ∀ k : Nat, k < 5 → d'.ibufByte (5 * 0 + k) = manCopied.ibufByte (5 * 0 + k)) :=
  ⟨⟨rfl, rfl, by decide, by decide, by decide, by decide, by decide⟩,
    rfl, rfl, by decide, by decide, by decide, by decide, by decide⟩

theorem witness_DecReturnsWhatEncEncoded :
    4 % 4 = 0 ∧ 4 ≤ man.caps.ibufBytes ∧ 4 / 4 * 5 ≤ man.caps.obufBytes ∧ exec (.enc 4) man = .next manEncoded ∧
      manCopied.caps = man.caps ∧ manEncoded.rlen.toNat ≤ manCopied.caps.ibufBytes ∧
      ∀ a : Nat, a < manEncoded.rlen.toNat → manCopied.ibufByte a = manEncoded.obufByte a :=
  ⟨by decide, by decide, by decide, rfl, rfl, by decide, by decide⟩

theorem witness_EncOutputPassesTheFilter :
    4 < 2 ^ 30 ∧ exec (.enc 4) man = .next manEncoded ∧ 0 < 4 / 4 ∧
      manEncoded.rlen.toNat ≤ manCopied.caps.ibufBytes ∧
      ∀ a : Nat, a < manEncoded.rlen.toNat → manCopied.ibufByte a = manEncoded.obufByte a :=
  ⟨by decide, rfl, by decide, by decide, by decide⟩

/-- The longest `ENC` of the example configuration: its 40 bytes do not fit `IBUF`, and the first two clauses speak of them. -/
theorem witness_EncOutputPassesTheFilter_longerThanIbuf :
    32 % 4 = 0 ∧ 32 ≤ State.reset.caps.ibufBytes ∧ 32 / 4 * 5 ≤ State.reset.caps.obufBytes ∧
      ∃ t, exec (.enc 32) State.reset = .next t ∧ t.rlen.toNat = 40 ∧ 39 < t.rlen.toNat ∧
        State.reset.caps.ibufBytes < t.rlen.toNat ∧ 7 < 32 / 4 :=
  ⟨by decide, by decide, by decide, _, rfl, rfl, by decide, by decide, by decide⟩

theorem witness_TwoIndexFormMeetsTheContract : 32 ≤ State.reset.caps.ibufBytes := by decide

/-- A block with a byte dropped, and one that is all in the alphabet. -/
theorem witness_FilteringIsIdempotent :
    4 ≤ man.caps.ibufBytes ∧ 4 < 2 ^ 30 ∧ 5 ≤ manCopied.caps.ibufBytes ∧
      ∀ a : Nat, a < 5 → InAlphabet (manCopied.ibufByte a) := by decide

/-- P2 and P5: "Ma", padded by 2 on both sides. -/
theorem witness_PaddedTailRoundTrips :
    let s := withInput [0x4D, 0x61, 0, 0]
    let t := after (execEnc 4 s)
    let u := withInput [0x39, 0x6A, 0x6E, 0x75, 0x75]
    2 + encPadding 2 ≤ s.caps.ibufBytes ∧ (2 + encPadding 2) / 4 * 5 ≤ s.caps.obufBytes ∧
      (∀ j : Nat, j < encPadding 2 → s.ibufByte (2 + j) = 0) ∧ exec (.enc (2 + encPadding 2)) s = .next t ∧
      u.caps = s.caps ∧ encKept 2 + decPadding (encKept 2) ≤ u.caps.ibufBytes ∧
      (∀ a : Nat, a < encKept 2 → u.ibufByte a = t.obufByte a) ∧
      (∀ j : Nat, j < decPadding (encKept 2) → u.ibufByte (encKept 2 + j) = padSymbol) :=
  ⟨by decide, by decide, by decide, rfl, rfl, by decide, by decide, by decide⟩

/-- A whole number of groups needs no padding, and neither does an empty input. -/
theorem witness_PaddedTailRoundTrips_whole :
    encPadding 4 = 0 ∧ encKept 4 = 5 ∧ decPadding (encKept 4) = 0 ∧ encPadding 0 = 0 ∧ encKept 0 = 0 := by decide

theorem witness_StepExecutesTheIssuedCommand :
    (State.reset.withIssue 0x40000000).requests = .writeRegister 0 0x40000000 :: [] := by decide

theorem witness_StepRunsTheEncodedCommand : (Instr.dec 5).wellFormed = true := by decide

theorem witness_UnitNeverActsOnItsOwn : State.reset.requests = [] := rfl

theorem witness_HostTransactionsFollowTheTable :
    31 < State.reset.caps.ibufBytes ∧ State.reset.caps.ibufBytes ≤ 32 ∧ 39 < State.reset.caps.obufBytes ∧
      State.reset.caps.obufBytes ≤ 40 ∧ (1 : Nat) ≠ 0 := by decide

theorem witness_OtherMovesAreRefusedByName : 2 < 3 := by decide

theorem witness_ExactlyTheDefinedTransactionsComplete :
    (State.reset.withRequests [.readIbuf 31]).requests = [.readIbuf 31] ∧
      (Transaction.readIbuf 31).definedFor State.reset.caps = true ∧
      (Transaction.readIbuf 32).definedFor State.reset.caps = false := by decide

/-- A host read; the issue of an `ENC`; the issue of an `FLT`. -/
theorem witness_OnlyTheListedWritersChangeTheState :
    (∃ t, step (man.withRequests [.readIbuf 0]) = .next t) ∧ (∃ t, step (man.withFetchWord 32 0x40000004) = .next t) ∧
      decode 0x40000004 ≠ .flt 4 ∧ (∃ t, step (man.withFetchWord 32 0xC0000004) = .next t) ∧
      decode 0xC0000004 ≠ .enc 4 :=
  ⟨⟨_, rfl⟩, ⟨_, rfl⟩, by decide, ⟨_, rfl⟩, by decide⟩

/-- An `ENC 4` and the byte just after its result; an `FLT 4` and the byte just after its block. -/
theorem witness_AByteStaysUntilItsNextWriter :
    (∃ t, step (man.withFetchWord 32 0x40000004) = .next t ∧ t.rlen.toNat ≤ 5) ∧
      decode 0x40000004 = .enc 4 ∧ (∃ t, step (man.withFetchWord 32 0xC0000004) = .next t) ∧
      decode 0xC0000004 = .flt 4 ∧ 4 ≤ 4 ∧ Transaction.issue 0x40000004 ≠ .reset :=
  ⟨⟨_, rfl, by decide⟩, by decide, ⟨_, rfl⟩, by decide, by decide, by decide⟩

/-- The invariant holds of a state with a block in it, and a step leads on from it. -/
theorem witness_EveryStepKeepsTheInvariant :
    (man.withIssue 0x40000004).Inv ∧ ∃ t, step (man.withIssue 0x40000004) = .next t :=
  ⟨⟨by decide, by decide, by decide, by decide, by decide, by decide, by decide, by decide, by decide⟩, _, rfl⟩

end Sys2Proof.Tests
end

section
/-! PROOF. The machine's invariant `State.Inv`: each state operation keeps it under its own side condition, hence so do
a command, a transaction and a step. -/

namespace Sys2Proof.Machine

variable {s t : State}

/-! ## The state operations -/

/-- The invariant says nothing about the host's waiting transactions (log 3). -/
theorem State.Inv.withRequests (h : s.Inv) (ts : List Transaction) : (s.withRequests ts).Inv := { h with }

/-- The invariant says nothing about what the host has read (R36, log 3). -/
theorem State.Inv.replied (h : s.Inv) (r : Reply) : (s.replied r).Inv := { h with }

/-- `IBUF` may be replaced by cells in canonical form inside its capacity (R12). -/
theorem State.Inv.withIbuf {m : Memory} (h : s.Inv) (hwf : m.wf) (hin : m.within s.caps.ibufBytes) :
    (s.withIbuf m).Inv :=
  { h with ibufWf := hwf, ibufWithin := hin }

/-- `OBUF` may be replaced by cells in canonical form inside its capacity (R13). -/
theorem State.Inv.withObuf {m : Memory} (h : s.Inv) (hwf : m.wf) (hin : m.within s.caps.obufBytes) :
    (s.withObuf m).Inv :=
  { h with obufWf := hwf, obufWithin := hin }

/-- Drawing moves the counter further from the free bytes of the last reset (log 2). -/
theorem State.Inv.drawn (h : s.Inv) (n : Nat) : (s.drawn n).Inv :=
  { h with drawsFresh := Nat.le_add_right_of_le h.drawsFresh }

/-- The status word of a completed command or a reset has its reserved bits 0 (R15). -/
theorem statusOk_reserved : statusOk.extractLsb' 2 30 = 0 := by decide

/-- The status word of an error has its reserved bits 0 (R15, R105). -/
theorem statusOf_reserved (e : ErrCode) : (statusOf e).extractLsb' 2 30 = 0 := by
  cases e <;> rfl

/-- A completed command keeps the invariant if its result fits a buffer; storing the length in 32 bits cannot make
it larger (R14). -/
theorem State.Inv.ended_ok {n : Nat} (h : s.Inv) (hn : n ≤ s.caps.obufBytes ∨ n ≤ s.caps.ibufBytes) :
    (s.ended (BitVec.ofNat 32 n) statusOk).Inv :=
  have hle : (BitVec.ofNat 32 n).toNat ≤ n := by
    rw [BitVec.toNat_ofNat]
    exact Nat.mod_le n _
  { h with
    reservedZero := statusOk_reserved
    errorMeansEmpty := fun herr => absurd rfl herr
    resultFits := hn.imp hle.trans hle.trans }

/-- Taking an error keeps the invariant: it empties the result (R105). -/
theorem State.Inv.ended_error (h : s.Inv) (e : ErrCode) : (s.ended 0 (statusOf e)).Inv :=
  { h with
    reservedZero := statusOf_reserved e
    errorMeansEmpty := fun _ => rfl
    resultFits := .inl (Nat.zero_le _) }

/-- A reset empties both buffers and the registers, and moves the counter past the bytes it draws (R24, log 2). -/
theorem State.Inv.resetUnit (h : s.Inv) : s.resetUnit.Inv where
  capsLegal := h.capsLegal
  ibufWf := .nil
  obufWf := .nil
  ibufWithin := by simp
  obufWithin := by simp
  reservedZero := statusOk_reserved
  errorMeansEmpty := fun _ => rfl
  resultFits := .inl (Nat.zero_le _)
  drawsFresh := Nat.le_refl _

/-! ## The buffers a command leaves -/

/-- The encoded block is written in canonical form (R70). -/
theorem State.encoded_wf (n : Nat) (h : s.obuf.wf) : (s.encoded n).wf :=
  wf_writeGroups _ _ n h

/-- The encoded block stays inside a capacity that holds its groups (R70). -/
theorem State.encoded_within {n cap : Nat} (h : s.obuf.within cap) (hn : 5 * n ≤ cap) :
    (s.encoded n).within cap :=
  within_writeGroups (fun _ => encGroup_length _) n h hn

/-- The decoded block is written in canonical form (R80). -/
theorem State.decoded_wf (n : Nat) (h : s.obuf.wf) : (s.decoded n).wf :=
  wf_writeGroups _ _ n h

/-- The decoded block stays inside a capacity that holds its groups (R80). -/
theorem State.decoded_within {n cap : Nat} (h : s.obuf.within cap) (hn : 4 * n ≤ cap) :
    (s.decoded n).within cap :=
  within_writeGroups (fun _ => bytesBe32_length _) n h hn

/-- The filtered block is canonical: two block writes, one after the other (R90, R92). -/
theorem State.filtered_wf (len : Nat) (h : s.ibuf.wf) : (s.filtered len).wf :=
  Memory.wf_writeAll _ _ (Memory.wf_writeAll _ _ h)

/-- The kept bytes and the free bytes after them end at `len` (R90, R92). -/
theorem State.filtered_within {len cap : Nat} (h : s.ibuf.within cap) (hlen : len ≤ cap) :
    (s.filtered len).within cap := by
  have hkept := s.keptBytes_length_le len
  have hkeptIn : (s.ibuf.writeAll 0 (s.keptBytes len)).within cap := Memory.within_writeAll h (by omega)
  exact Memory.within_writeAll hkeptIn (by rw [State.freeBytes_length]; omega)

/-! ## The commands, the transactions and the step -/

/-- Every command keeps the invariant, whether it completes or ends in an error. -/
theorem State.Inv.of_exec {i : Instr} (h : s.Inv) (hexec : exec i s = .next t) : t.Inv := by
  obtain ⟨e, he⟩ | ⟨len, -, hc, he⟩ | ⟨len, -, hc, he⟩ | ⟨len, -, hlen, he⟩ := exec_cases i s <;>
    obtain rfl := Host.Outcome.next.inj (he.symm.trans hexec)
  case inl => exact h.ended_error e
  case inr.inl =>
    obtain ⟨-, -, hfit⟩ := groupCommandError_eq_none.1 hc
    rw [Nat.mul_comm] at hfit
    have hbuf := h.withObuf (State.encoded_wf _ h.obufWf) (State.encoded_within h.obufWithin hfit)
    exact hbuf.ended_ok (.inl hfit)
  case inr.inr.inl =>
    obtain ⟨-, -, hfit⟩ := groupCommandError_eq_none.1 hc
    rw [Nat.mul_comm] at hfit
    have hbuf := h.withObuf (State.decoded_wf _ h.obufWf) (State.decoded_within h.obufWithin hfit)
    exact hbuf.ended_ok (.inl hfit)
  case inr.inr.inr =>
    have hfit := (s.keptBytes_length_le len).trans hlen
    have hbuf := h.withIbuf (State.filtered_wf len h.ibufWf) (State.filtered_within h.ibufWithin hlen)
    exact (hbuf.drawn _).ended_ok (.inr hfit)

/-- Every transaction that completes keeps the invariant (R23). -/
theorem State.Inv.of_perform {req : Transaction} (h : s.Inv) (hperform : perform req s = .next t) : t.Inv := by
  obtain ⟨a, b, -, ha, rfl⟩ | ⟨r, -, -, -, rfl⟩ | ⟨cw, -, hexec⟩ | ⟨-, rfl⟩ := perform_cases hperform
  · exact h.withIbuf (Memory.wf_write a b h.ibufWf) (Memory.within_write b h.ibufWithin ha)
  · exact h.replied r
  · exact h.of_exec hexec
  · exact h.resetUnit

/-- Every step keeps the invariant: the idle one answers the same state, any other performs a transaction (R10). -/
theorem State.Inv.of_step (h : s.Inv) (hstep : step s = .next t) : t.Inv := by
  cases hreq : s.requests with
  | nil =>
    obtain rfl := Host.Outcome.next.inj ((step_nil hreq).symm.trans hstep)
    exact h
  | cons req rest => exact (h.withRequests rest).of_perform ((step_cons hreq).symm.trans hstep)

/-- Settles O39, from the lemma that a step keeps the invariant. -/
theorem everyStepKeepsTheInvariant : Obligations.EveryStepKeepsTheInvariant :=
  fun _ _ h hstep => h.of_step hstep

end Sys2Proof.Machine
end

section
/-! PROOF. The host's transactions (10_state.md R23): one rule for each move that completes and one for each that is
refused, then the statements that follow from them. -/

namespace Sys2Proof.Machine

section
variable (s : State) (rest : List Transaction)

/-! ## What each move does -/

/-- A step performs the first waiting transaction on the state without it (R10, R38). -/
theorem step_request (req : Transaction) :
    step { s with requests := req :: rest } = perform req (s.withRequests rest) :=
  step_cons rfl

section
variable {s}

theorem perform_writeIbuf {a : Nat} (b : Byte) (ha : a < s.caps.ibufBytes) :
    perform (.writeIbuf a b) s = .next (s.withIbuf (s.ibuf.write a b)) := if_pos ha

theorem perform_writeIbuf_outside {a : Nat} (b : Byte) (ha : s.caps.ibufBytes ≤ a) :
    perform (.writeIbuf a b) s = .refused (.offsetOutsideIbuf a) := if_neg ha.not_gt

theorem perform_readIbuf {a : Nat} (ha : a < s.caps.ibufBytes) :
    perform (.readIbuf a) s = .next (s.replied (.byte (s.ibufByte a))) := if_pos ha

theorem perform_readIbuf_outside {a : Nat} (ha : s.caps.ibufBytes ≤ a) :
    perform (.readIbuf a) s = .refused (.offsetOutsideIbuf a) := if_neg ha.not_gt

theorem perform_readObuf {a : Nat} (ha : a < s.caps.obufBytes) :
    perform (.readObuf a) s = .next (s.replied (.byte (s.obufByte a))) := if_pos ha

theorem perform_readObuf_outside {a : Nat} (ha : s.caps.obufBytes ≤ a) :
    perform (.readObuf a) s = .refused (.offsetOutsideObuf a) := if_neg ha.not_gt

end

theorem perform_writeObuf (a : Nat) (b : Byte) :
    perform (.writeObuf a b) s = .refused (.obufIsReadOnly a) := rfl

/-- A write of register 0 is `HostIssue` (R16, R17). -/
theorem perform_issue (cw : Word) : perform (.writeRegister 0 cw) s = exec (decode cw) s := rfl

/-- `STATUS` and `RLEN` are read-only (R14, R15). -/
theorem perform_writeRegister_readOnly {n : Nat} (w : Word) (hn : n = 1 ∨ n = 2) :
    perform (.writeRegister n w) s = .refused (.registerIsReadOnly n) := by
  rcases hn with rfl | rfl <;> rfl

theorem perform_writeRegister_unknown {n : Nat} (w : Word) (hn : 2 < n) :
    perform (.writeRegister n w) s = .refused (.noSuchRegister n) := by
  have hcmd : n ≠ cmdNumber := by unfold cmdNumber; omega
  have hro : ¬ (n = statusNumber ∨ n = rlenNumber) := by unfold statusNumber rlenNumber; omega
  rw [perform, hostWriteRegister, if_neg hcmd, if_neg hro]

theorem perform_readRegister_status :
    perform (.readRegister 1) s = .next (s.replied (.word s.status)) := rfl

theorem perform_readRegister_rlen :
    perform (.readRegister 2) s = .next (s.replied (.word s.rlen)) := rfl

/-- `CMD` is write-only (R16). -/
theorem perform_readRegister_cmd : perform (.readRegister 0) s = .refused .cmdIsWriteOnly := rfl

theorem perform_readRegister_unknown {n : Nat} (hn : 2 < n) :
    perform (.readRegister n) s = .refused (.noSuchRegister n) := by
  have hcmd : n ≠ cmdNumber := by unfold cmdNumber; omega
  have hstatus : n ≠ statusNumber := by unfold statusNumber; omega
  have hrlen : n ≠ rlenNumber := by unfold rlenNumber; omega
  rw [perform, hostReadRegister, if_neg hstatus, if_neg hrlen, if_neg hcmd]

theorem perform_partialRegister (n : Nat) :
    perform (.partialRegister n) s = .refused (.partialRegisterAccess n) := rfl

theorem perform_reset : perform .reset s = .next s.resetUnit := rfl

/-- `IBUF[x]` after `IBUF[a] <- b`. -/
theorem State.withIbuf_write_ibufByte (a : Nat) (b : Byte) (x : Nat) :
    (s.withIbuf (s.ibuf.write a b)).ibufByte x = if x = a then b else s.ibufByte x := by
  rw [State.withIbuf_ibufByte, Memory.read?_write]
  split_ifs <;> rfl

/-- `STATUS.ERR` is `OK` after a reset (R24). -/
@[simp] theorem State.resetUnit_err : s.resetUnit.err = 0 := rfl

end

/-! ## The statements -/

/-- Settles O29: the rule of `HostIssue`, for the waiting issue and for the one `withFetchWord` puts in front. -/
theorem stepExecutesTheIssuedCommand : Obligations.StepExecutesTheIssuedCommand :=
  ⟨fun s cw rest h => (step_cons h).trans (perform_issue (s.withRequests rest) cw),
   fun s _ w => (step_request s s.requests _).trans (perform_issue s (BitVec.ofNat 32 w))⟩

/-- Settles O31: the idle step. -/
theorem unitNeverActsOnItsOwn : Obligations.UnitNeverActsOnItsOwn := fun _ h => step_nil h

/-- Settles O32: each row of R23's table is the rule of its transaction. -/
theorem hostTransactionsFollowTheTable : Obligations.HostTransactionsFollowTheTable := by
  intro s rest
  simp only [step_request]
  refine ⟨fun a b ha => ⟨_, perform_writeIbuf b ha, ?written, fun a' hne => ?others, rfl⟩,
    fun a ha => perform_readIbuf ha, fun a ha => perform_readObuf ha,
    perform_readRegister_status _, perform_readRegister_rlen _, fun cw => perform_issue _ cw,
    ⟨_, perform_reset _, rfl, rfl⟩,
    fun a b ha => ⟨perform_writeIbuf_outside b ha, perform_readIbuf_outside ha⟩,
    fun a ha => perform_readObuf_outside ha, fun a b => perform_writeObuf _ a b,
    fun w => ⟨perform_writeRegister_readOnly _ w (.inl rfl), perform_writeRegister_readOnly _ w (.inr rfl)⟩⟩
  case written => rw [State.withIbuf_write_ibufByte, if_pos rfl]
  case others => rw [State.withIbuf_write_ibufByte, if_neg hne, State.withRequests_ibufByte]

/-- Settles O33: the refusals of a register access. -/
theorem otherMovesAreRefusedByName : Obligations.OtherMovesAreRefusedByName := by
  intro s rest
  simp only [step_request]
  exact ⟨perform_readRegister_cmd _,
    fun n w hn => ⟨perform_writeRegister_unknown _ w hn, perform_readRegister_unknown _ hn⟩,
    perform_partialRegister _⟩

/-- Settles O37: the start state's registers are written 0, and `Reset` writes them 0. -/
theorem resetClearsTheRegisters : Obligations.ResetClearsTheRegisters := by
  refine ⟨⟨rfl, rfl, rfl⟩, fun s rest => ⟨(s.withRequests rest).resetUnit, ?_⟩⟩
  rw [step_request, perform_reset]
  exact ⟨rfl, rfl, State.resetUnit_err _, rfl, rfl, rfl, rfl⟩

/-- Settles O38: after a reset no offset is listed, so both buffers read as free bytes from the old counter on. -/
theorem resetDrawsEveryByteAnew : Obligations.ResetDrawsEveryByteAnew := by
  refine fun s rest => ⟨(s.withRequests rest).resetUnit, ?_⟩
  rw [step_request, perform_reset]
  exact ⟨rfl, fun a _ => State.resetUnit_ibufByte _ a, fun a _ => State.resetUnit_obufByte _ a, rfl⟩

/-- Settles O40: the buffers are empty, the registers 0, and the counter starts past the buffers' free bytes (logs 1, 2). -/
theorem resetSatisfiesTheInvariant : Obligations.ResetSatisfiesTheInvariant where
  capsLegal := by decide
  ibufWf := .nil
  obufWf := .nil
  ibufWithin := by decide
  obufWithin := by decide
  reservedZero := rfl
  errorMeansEmpty := fun _ => rfl
  resultFits := .inl (Nat.zero_le _)
  drawsFresh := by decide

end Sys2Proof.Machine
end

section
/-! PROOF. The frame of a command and of a step (10_state.md R25, R11): which parts of the state an answered command leaves
as they were, each part by a lemma of its own. -/

namespace Sys2Proof.Machine

section
variable {i : Instr} {s t : State}

/-- A byte of `IBUF` is read from its cells and from where the free bytes begin, and from nothing else. -/
theorem State.ibufByte_congr (hbuf : t.ibuf = s.ibuf) (hbase : t.drawBase = s.drawBase) (a : Nat) :
    t.ibufByte a = s.ibufByte a := by
  rw [State.ibufByte, State.ibufByte, hbuf, hbase]

/-- A byte of `OBUF` is read from its cells and from where its free bytes begin. -/
theorem State.obufByte_congr (hbuf : t.obuf = s.obuf) (hbase : t.drawBase = s.drawBase) (hcaps : t.caps = s.caps)
    (a : Nat) : t.obufByte a = s.obufByte a := by
  rw [State.obufByte, State.obufByte, hbuf, hbase, hcaps]

/-- The state a command answers: an error writes `RLEN` and `STATUS` alone, and a command that completes has
passed its check (`exec_cases`, read from the answer). -/
theorem exec_next_cases (h : exec i s = .next t) :
    (∃ e : ErrCode, t = s.ended 0 (statusOf e)) ∨
    (∃ len, i = .enc len ∧ groupCommandError 4 5 len s.caps = none ∧
      t = (s.withObuf (s.encoded (len / 4))).ended (BitVec.ofNat 32 (5 * (len / 4))) statusOk) ∨
    (∃ len, i = .dec len ∧ groupCommandError 5 4 len s.caps = none ∧
      t = (s.withObuf (s.decoded (len / 5))).ended (BitVec.ofNat 32 (4 * (len / 5))) statusOk) ∨
    (∃ len, i = .flt len ∧ len ≤ s.caps.ibufBytes ∧
      t = ((s.withIbuf (s.filtered len)).drawn (len - (s.keptBytes len).length)).ended
        (BitVec.ofNat 32 (s.keptBytes len).length) statusOk) := by
  simpa only [h, Host.Outcome.next.injEq] using exec_cases i s

/-! ## Parts no command changes -/

/-- The parameters (R6), the host's side (log 3) and where the free bytes begin (log 2). -/
theorem exec_keeps_own_fields (h : exec i s = .next t) :
    t.caps = s.caps ∧ t.requests = s.requests ∧ t.replies = s.replies ∧ t.drawBase = s.drawBase := by
  obtain ⟨e, rfl⟩ | ⟨len, -, -, rfl⟩ | ⟨len, -, -, rfl⟩ | ⟨len, -, -, rfl⟩ := exec_next_cases h <;>
    exact ⟨rfl, rfl, rfl, rfl⟩

/-- A command whose `STATUS` is not 0 ended in error, and an error writes `STATUS` and `RLEN` alone (R105). -/
theorem exec_eq_of_status_ne_zero (h : exec i s = .next t) (hstatus : t.status ≠ 0) :
    t = { s with status := t.status, rlen := t.rlen } := by
  obtain ⟨e, rfl⟩ | ⟨len, -, -, rfl⟩ | ⟨len, -, -, rfl⟩ | ⟨len, -, -, rfl⟩ := exec_next_cases h
  · rfl
  all_goals exact absurd rfl hstatus

/-! ## Parts only some commands change -/

/-- Only `FLT` changes `IBUF` and draws free bytes (R90, R92). -/
theorem exec_ibuf_draws (h : exec i s = .next t) (hflt : ∀ len, i ≠ .flt len) :
    t.ibuf = s.ibuf ∧ t.draws = s.draws := by
  obtain ⟨e, rfl⟩ | ⟨len, -, -, rfl⟩ | ⟨len, -, -, rfl⟩ | ⟨len, hi, -, -⟩ := exec_next_cases h
  case inr.inr.inr => exact absurd hi (hflt len)
  all_goals exact ⟨rfl, rfl⟩

/-- Only `ENC` and `DEC` change `OBUF` (R70, R80). -/
theorem exec_obuf (h : exec i s = .next t) (hgroup : ∀ len, i ≠ .enc len ∧ i ≠ .dec len) : t.obuf = s.obuf := by
  obtain ⟨e, rfl⟩ | ⟨len, hi, -, -⟩ | ⟨len, hi, -, -⟩ | ⟨len, -, -, rfl⟩ := exec_next_cases h
  · rfl
  · exact absurd hi (hgroup len).1
  · exact absurd hi (hgroup len).2
  · rfl

/-- From the new `RLEN` on every command leaves `OBUF`. A well-formed length keeps the result's length below 2^32, so
`RLEN` holds it whole (R14, R52). -/
theorem exec_obufByte_of_rlen_le (h : exec i s = .next t) (hwf : i.wellFormed = true) {a : Nat}
    (ha : t.rlen.toNat ≤ a) : t.obufByte a = s.obufByte a := by
  obtain ⟨e, rfl⟩ | ⟨len, rfl, -, rfl⟩ | ⟨len, rfl, -, rfl⟩ | ⟨len, rfl, -, rfl⟩ := exec_next_cases h
  case inr.inl =>
    have hlen := (lenFits_iff len).1 hwf
    rw [State.ended_rlen, BitVec.toNat_ofNat, Nat.mod_eq_of_lt (by omega)] at ha
    exact s.encoded_obufByte_after _ _ ha
  case inr.inr.inl =>
    have hlen := (lenFits_iff len).1 hwf
    rw [State.ended_rlen, BitVec.toNat_ofNat, Nat.mod_eq_of_lt (by omega)] at ha
    exact s.decoded_obufByte_after _ _ ha
  all_goals rfl

/-- `FLT len` leaves `IBUF` from `len` on (R90). -/
theorem exec_flt_ibufByte_of_len_le {len a : Nat} (h : exec (.flt len) s = .next t) (ha : len ≤ a) :
    t.ibufByte a = s.ibufByte a := by
  obtain ⟨e, rfl⟩ | ⟨len', hi, -, -⟩ | ⟨len', hi, -, -⟩ | ⟨len', hi, -, rfl⟩ := exec_next_cases h
  · rfl
  · cases hi
  · cases hi
  · obtain rfl := Instr.flt.inj hi
    have hkept := s.keptBytes_length_le len
    rw [State.filtered_ibufByte, dif_neg (by omega), if_neg (by omega)]

end

/-! ## The statements -/

/-- Settles O20, part by part. -/
theorem aCommandChangesOnlyWhatItsRuleNames : Obligations.ACommandChangesOnlyWhatItsRuleNames := by
  intro i s t hwf h
  obtain ⟨hcaps, hrequests, hreplies, hbase⟩ := exec_keeps_own_fields h
  refine ⟨hcaps, hrequests, hreplies, hbase, exec_eq_of_status_ne_zero h, fun hflt => ?notFlt, fun len hi => ?flt⟩
  case notFlt =>
    obtain ⟨hibuf, hdraws⟩ := exec_ibuf_draws h hflt
    exact ⟨State.ibufByte_congr hibuf hbase, fun a ha => exec_obufByte_of_rlen_le h hwf ha, hdraws⟩
  case flt =>
    subst hi
    have hobuf : t.obuf = s.obuf := exec_obuf h fun _ => ⟨nofun, nofun⟩
    exact ⟨State.obufByte_congr hobuf hbase hcaps, fun a ha => exec_flt_ibufByte_of_len_le h ha⟩

/-- Settles O35: a host write touches `IBUF` alone, a read nothing of the unit, and an issue what its command does. -/
theorem onlyTheListedWritersChangeTheState : Obligations.OnlyTheListedWritersChangeTheState := by
  intro s t req rest hreq hstep
  rw [step_cons hreq] at hstep
  obtain ⟨a, b, rfl, -, rfl⟩ | ⟨r, -, -, -, rfl⟩ | ⟨cw, rfl, h⟩ | ⟨rfl, rfl⟩ := perform_cases hstep
  · exact ⟨rfl, rfl, fun _ => ⟨fun _ => rfl, fun hwrite _ => absurd rfl (hwrite a b), fun _ => ⟨rfl, rfl⟩⟩⟩
  · exact ⟨rfl, rfl, fun _ => ⟨fun _ => rfl, fun _ _ => rfl, fun _ => ⟨rfl, rfl⟩⟩⟩
  · obtain ⟨hcaps, hrequests, -, -⟩ := exec_keeps_own_fields h
    refine ⟨hcaps, hrequests, fun _ =>
      ⟨fun hgroup => ?obuf, fun _ hflt => ?ibuf, fun hissue => absurd rfl (hissue cw)⟩⟩
    case obuf => exact (exec_obuf h fun len => hgroup cw len rfl).trans (State.withRequests_obuf ..)
    case ibuf => exact (exec_ibuf_draws h fun len => hflt cw len rfl).1.trans (State.withRequests_ibuf ..)
  · exact ⟨rfl, rfl, fun hreset => absurd rfl hreset⟩

end Sys2Proof.Machine
end

section
/-! PROOF. What a command's result depends on (10_state.md R22): the groups and the kept bytes are functions of the bytes
read, so two states that agree on these give the same result. -/

namespace Sys2Proof.Machine

section
variable {s s' : State}

/-! ## What is computed from the bytes read -/

/-- The raw groups of a block are read inside it (R37). -/
theorem State.rawGroup_congr {len g : Nat} (hread : ∀ a, a < len → s'.ibufByte a = s.ibufByte a)
    (hg : g < len / 4) : s'.rawGroup g = s.rawGroup g := by
  unfold State.rawGroup
  rw [hread (4 * g) (by omega), hread (4 * g + 1) (by omega), hread (4 * g + 2) (by omega),
    hread (4 * g + 3) (by omega)]

/-- The encoded groups of a block are read inside it (R37). -/
theorem State.encodedGroup_congr {len g : Nat} (hread : ∀ a, a < len → s'.ibufByte a = s.ibufByte a)
    (hg : g < len / 5) : s'.encodedGroup g = s.encodedGroup g := by
  unfold State.encodedGroup
  rw [hread (5 * g) (by omega), hread (5 * g + 1) (by omega), hread (5 * g + 2) (by omega),
    hread (5 * g + 3) (by omega), hread (5 * g + 4) (by omega)]

/-- The kept bytes are those of the block (R90). -/
theorem State.keptBytes_congr {len : Nat} (hread : ∀ a, a < len → s'.ibufByte a = s.ibufByte a) :
    s'.keptBytes len = s.keptBytes len := by
  have hblock : s'.inputBlock len = s.inputBlock len :=
    List.map_congr_left fun a ha => hread a (List.mem_range.1 ha)
  rw [State.keptBytes, State.keptBytes, hblock]

/-- Two `ENC` results of the same raw groups agree byte for byte. -/
theorem State.encoded_obufByte_congr {n a : Nat} (hgroup : ∀ g, g < n → s'.rawGroup g = s.rawGroup g)
    (ha : a < 5 * n) :
    (s'.withObuf (s'.encoded n)).obufByte a = (s.withObuf (s.encoded n)).obufByte a := by
  have hg : a / 5 < n := by omega
  have hbyte (u : State) := u.encoded_obufByte 0 statusOk hg (Nat.mod_lt a (by decide))
  simp only [State.ended_obufByte] at hbyte
  rw [← Nat.div_add_mod a 5, hbyte, hbyte, hgroup _ hg]

/-- Two `DEC` results of the same encoded groups agree byte for byte. -/
theorem State.decoded_obufByte_congr {n a : Nat} (hgroup : ∀ g, g < n → s'.encodedGroup g = s.encodedGroup g)
    (ha : a < 4 * n) :
    (s'.withObuf (s'.decoded n)).obufByte a = (s.withObuf (s.decoded n)).obufByte a := by
  have hg : a / 4 < n := by omega
  have hbyte (u : State) := u.decoded_obufByte 0 statusOk hg (Nat.mod_lt a (by decide))
  simp only [State.ended_obufByte] at hbyte
  rw [← Nat.div_add_mod a 4, hbyte, hbyte, hgroup _ hg]

/-- Below the number of kept bytes the filtered buffer holds these (R90). -/
theorem State.filtered_ibufByte_kept {len a : Nat} (n : Nat) (ha : a < (s.keptBytes len).length) :
    ((s.withIbuf (s.filtered len)).drawn n).ibufByte a = (s.keptBytes len)[a] := by
  have hbyte := s.filtered_ibufByte len n a 0 statusOk
  rwa [State.ended_ibufByte, dif_pos ha] at hbyte

/-! ## The same result -/

/-- Two answers of the command `i` give the host the same result: `STATUS`, `RLEN` and the bytes `RLEN` counts, which stand
in `IBUF` after `FLT` and in `OBUF` after any other command (R14, R22). -/
def SameResult (i : Instr) (t t' : State) : Prop :=
  t'.status = t.status ∧ t'.rlen = t.rlen ∧
    ((∀ len, i ≠ .flt len) → ∀ a, a < t.rlen.toNat → t'.obufByte a = t.obufByte a) ∧
    ((∃ len, i = .flt len) → ∀ a, a < t.rlen.toNat → t'.ibufByte a = t.ibufByte a)

/-- Two commands that end with the same words give the same result if the bytes of the result agree; a length
stored in 32 bits cannot count more bytes than it was (R14). -/
theorem sameResult_ended {i : Instr} {n : Nat} {u u' : State} (status : Word)
    (hobuf : (∀ len, i ≠ .flt len) → ∀ a, a < n → u'.obufByte a = u.obufByte a)
    (hibuf : (∃ len, i = .flt len) → ∀ a, a < n → u'.ibufByte a = u.ibufByte a) :
    SameResult i (u.ended (BitVec.ofNat 32 n) status) (u'.ended (BitVec.ofNat 32 n) status) := by
  have hle : (BitVec.ofNat 32 n).toNat ≤ n := by
    rw [BitVec.toNat_ofNat]
    exact Nat.mod_le n _
  exact ⟨rfl, rfl, fun hi a ha => hobuf hi a (ha.trans_le hle), fun hi a ha => hibuf hi a (ha.trans_le hle)⟩

/-- An error gives the same result from every state: its code and no bytes (R105). -/
theorem sameResult_error (i : Instr) (e : ErrCode) (s s' : State) :
    SameResult i (s.ended 0 (statusOf e)) (s'.ended 0 (statusOf e)) :=
  sameResult_ended (n := 0) _ (fun _ _ => nofun) (fun _ _ => nofun)

variable (hcaps : s'.caps = s.caps) {len : Nat} (hread : ∀ a, a < len → s'.ibufByte a = s.ibufByte a)
include hcaps hread

/-- `ENC` gives the same result on the same block. -/
theorem execEnc_sameResult :
    ∃ t t', execEnc len s = .next t ∧ execEnc len s' = .next t' ∧ SameResult (.enc len) t t' := by
  cases hc : groupCommandError 4 5 len s.caps with
  | some e => exact ⟨_, _, execEnc_err hc, execEnc_err (hcaps ▸ hc), sameResult_error _ e s s'⟩
  | none =>
    exact ⟨_, _, execEnc_ok hc, execEnc_ok (hcaps ▸ hc), sameResult_ended _
      (fun _ _ => State.encoded_obufByte_congr fun _ => State.rawGroup_congr hread) nofun⟩

/-- `DEC` gives the same result on the same block. -/
theorem execDec_sameResult :
    ∃ t t', execDec len s = .next t ∧ execDec len s' = .next t' ∧ SameResult (.dec len) t t' := by
  cases hc : groupCommandError 5 4 len s.caps with
  | some e => exact ⟨_, _, execDec_err hc, execDec_err (hcaps ▸ hc), sameResult_error _ e s s'⟩
  | none =>
    exact ⟨_, _, execDec_ok hc, execDec_ok (hcaps ▸ hc), sameResult_ended _
      (fun _ _ => State.decoded_obufByte_congr fun _ => State.encodedGroup_congr hread) nofun⟩

/-- `FLT` gives the same result on the same block: below `RLEN` stand the kept bytes (R90). -/
theorem execFlt_sameResult :
    ∃ t t', execFlt len s = .next t ∧ execFlt len s' = .next t' ∧ SameResult (.flt len) t t' := by
  rcases Nat.lt_or_ge s.caps.ibufBytes len with hlen | hlen
  · exact ⟨_, _, execFlt_err hlen, execFlt_err (hcaps ▸ hlen), sameResult_error _ .range s s'⟩
  · have hkept : s'.keptBytes len = s.keptBytes len := State.keptBytes_congr hread
    have hexec' := execFlt_ok (s := s') (hcaps ▸ hlen)
    rw [hkept] at hexec'
    refine ⟨_, _, execFlt_ok hlen, hexec', sameResult_ended _ (fun hflt => absurd rfl (hflt len)) fun _ a ha => ?_⟩
    rw [State.filtered_ibufByte_kept _ ha, State.filtered_ibufByte_kept _ (hkept ▸ ha)]
    simp only [hkept]

end

/-- Settles O21, command by command. -/
theorem resultDependsOnlyOnCommandAndIbuf : Obligations.ResultDependsOnlyOnCommandAndIbuf := by
  intro i s s' hcaps hread
  cases i with
  | enc len => exact execEnc_sameResult hcaps fun a => hread len a (.inl rfl)
  | dec len => exact execDec_sameResult hcaps fun a => hread len a (.inr (.inl rfl))
  | flt len => exact execFlt_sameResult hcaps fun a => hread len a (.inr (.inr rfl))
  | illegal low => exact ⟨_, _, rfl, rfl, sameResult_error _ .op s s'⟩

end Sys2Proof.Machine
end

section
/-! PROOF. The byte order of a group (20_memory.md R32): `bytes_be32` takes a word apart and `be32` puts it together. -/

namespace Sys2Proof.Machine

/-- The bytes of a big-endian value are the bytes it was built from. -/
theorem bytesBe32_be32 (b0 b1 b2 b3 : Byte) : bytesBe32 (be32 b0 b1 b2 b3) = [b0, b1, b2, b3] := by
  have hvalue := be32_toNat b0 b1 b2 b3
  have h1 := b1.isLt
  have h2 := b2.isLt
  have h3 := b3.isLt
  have hbyte {k : Nat} {b : Byte} (h : (be32 b0 b1 b2 b3).toNat / 2 ^ k % 256 = b.toNat) :
      (be32 b0 b1 b2 b3).extractLsb' k 8 = b :=
    BitVec.eq_of_toNat_eq ((extractByte_toNat _ k).trans h)
  rw [bytesBe32, hbyte (b := b0) (by omega), hbyte (b := b1) (by omega), hbyte (b := b2) (by omega),
    hbyte (b := b3) (by omega)]

/-- The big-endian value of a word's own bytes is the word. -/
theorem be32_extractBytes (V : Word) :
    be32 (V.extractLsb' 24 8) (V.extractLsb' 16 8) (V.extractLsb' 8 8) (V.extractLsb' 0 8) = V := by
  have hV := V.isLt
  apply BitVec.eq_of_toNat_eq
  simp only [be32_toNat, extractByte_toNat]
  omega

/-- Settles O5: the four bytes of `V` are those at the bits 31:24, 23:16, 15:8 and 7:0. -/
theorem bigEndianConversionsAreInverse : Obligations.BigEndianConversionsAreInverse :=
  ⟨fun b0 b1 b2 b3 => ⟨be32_toNat b0 b1 b2 b3, bytesBe32_be32 b0 b1 b2 b3⟩,
   fun V => ⟨_, _, _, _, rfl, be32_extractBytes V, extractByte_toNat V 24, extractByte_toNat V 16,
    extractByte_toNat V 8, (extractByte_toNat V 0).trans (by rw [pow_zero, Nat.div_one])⟩⟩

end Sys2Proof.Machine
end

section
/-! PROOF. Which transactions complete (10_state.md R23; 20_memory.md R39): those of the table answer a next state, every
other move is refused. -/

namespace Sys2Proof.Machine

section
variable {s : State} {req : Transaction}

/-- Every command ends, in a result or in an error (R39, R105). -/
theorem exec_completes (i : Instr) (s : State) : ∃ t, exec i s = .next t := by
  obtain ⟨e, h⟩ | ⟨len, -, -, h⟩ | ⟨len, -, -, h⟩ | ⟨len, -, -, h⟩ := exec_cases i s <;> exact ⟨_, h⟩

/-- A transaction of R23's table completes. -/
theorem perform_completes (hdef : req.definedFor s.caps = true) : ∃ t, perform req s = .next t := by
  cases req with
  | writeIbuf a b => exact ⟨_, perform_writeIbuf b (of_decide_eq_true hdef)⟩
  | readIbuf a => exact ⟨_, perform_readIbuf (of_decide_eq_true hdef)⟩
  | readObuf a => exact ⟨_, perform_readObuf (of_decide_eq_true hdef)⟩
  | writeObuf a b => cases hdef
  | writeRegister n w =>
    obtain rfl : n = 0 := of_decide_eq_true hdef
    exact (perform_issue s w).symm ▸ exec_completes (decode w) s
  | readRegister n =>
    obtain rfl | rfl : n = 1 ∨ n = 2 := of_decide_eq_true hdef
    · exact ⟨_, perform_readRegister_status s⟩
    · exact ⟨_, perform_readRegister_rlen s⟩
  | partialRegister n => cases hdef
  | reset => exact ⟨_, perform_reset s⟩

/-- A move that is none of the table's transactions is refused (R23, U7). -/
theorem perform_refused (hundef : req.definedFor s.caps = false) : ∃ r, perform req s = .refused r := by
  cases req with
  | writeIbuf a b => exact ⟨_, perform_writeIbuf_outside b (Nat.le_of_not_lt (of_decide_eq_false hundef))⟩
  | readIbuf a => exact ⟨_, perform_readIbuf_outside (Nat.le_of_not_lt (of_decide_eq_false hundef))⟩
  | readObuf a => exact ⟨_, perform_readObuf_outside (Nat.le_of_not_lt (of_decide_eq_false hundef))⟩
  | writeObuf a b => exact ⟨_, perform_writeObuf s a b⟩
  | writeRegister n w =>
    have hn : n ≠ 0 := of_decide_eq_false hundef
    obtain hro | hunknown : (n = 1 ∨ n = 2) ∨ 2 < n := by omega
    · exact ⟨_, perform_writeRegister_readOnly s w hro⟩
    · exact ⟨_, perform_writeRegister_unknown s w hunknown⟩
  | readRegister n =>
    have hn : ¬ (n = 1 ∨ n = 2) := of_decide_eq_false hundef
    obtain rfl | hunknown : n = 0 ∨ 2 < n := by omega
    · exact ⟨_, perform_readRegister_cmd s⟩
    · exact ⟨_, perform_readRegister_unknown s hunknown⟩
  | partialRegister n => exact ⟨_, perform_partialRegister s n⟩
  | reset => cases hundef

end

/-- Settles O34: the table decides which of the two answers a transaction gets, and no step has both. -/
theorem exactlyTheDefinedTransactionsComplete : Obligations.ExactlyTheDefinedTransactionsComplete := by
  intro s req rest hreq
  rw [step_cons hreq]
  cases hdef : req.definedFor s.caps with
  | true =>
    obtain ⟨t, ht⟩ := perform_completes (s := s.withRequests rest) hdef
    simp [ht]
  | false =>
    obtain ⟨r, hr⟩ := perform_refused (s := s.withRequests rest) hdef
    simp [hr]

end Sys2Proof.Machine
end

section
/-! PROOF. How long a buffer byte stays (20_memory.md R38, R31; 10_state.md R25): a command leaves every byte that its
rule does not cover, and so does a step. -/

namespace Sys2Proof

/-- A decoded command is well formed: its length is a 30-bit field (R52). -/
theorem decode_wellFormed (cw : Word) : (decode cw).wellFormed = true := by
  have hlen : lenFits (lenField cw).toNat = true := (lenFits_iff _).2 (lenField cw).isLt
  obtain hop | hop | hop | hop := opField_cases cw
  · rw [decode_of_op_zero hop, Instr.wellFormed]
  · rwa [decode_of_op_one hop, Instr.wellFormed]
  · rwa [decode_of_op_two hop, Instr.wellFormed]
  · rwa [decode_of_op_three hop, Instr.wellFormed]

namespace Machine

section
variable {i : Instr} {s t : State} {a : Nat}

/-- A command leaves a byte of `IBUF` unless it is an `FLT` whose block covers it (R90). -/
theorem exec_ibufByte_of_uncovered (h : exec i s = .next t) (hcover : ∀ len, i = .flt len → len ≤ a) :
    t.ibufByte a = s.ibufByte a := by
  by_cases hflt : ∃ len, i = .flt len
  · obtain ⟨len, rfl⟩ := hflt
    exact exec_flt_ibufByte_of_len_le h (hcover len rfl)
  · obtain ⟨-, -, -, hbase⟩ := exec_keeps_own_fields h
    exact State.ibufByte_congr (exec_ibuf_draws h (not_exists.1 hflt)).1 hbase a

/-- A well-formed command leaves a byte of `OBUF` unless it is an `ENC` or a `DEC` whose result covers it (R70, R80). -/
theorem exec_obufByte_of_uncovered (h : exec i s = .next t) (hwf : i.wellFormed = true)
    (hcover : ∀ len, i = .enc len ∨ i = .dec len → t.rlen.toNat ≤ a) : t.obufByte a = s.obufByte a := by
  by_cases hgroup : ∃ len, i = .enc len ∨ i = .dec len
  · obtain ⟨len, hi⟩ := hgroup
    exact exec_obufByte_of_rlen_le h hwf (hcover len hi)
  · obtain ⟨hcaps, -, -, hbase⟩ := exec_keeps_own_fields h
    exact State.obufByte_congr (exec_obuf h fun len => not_or.1 (not_exists.1 hgroup len)) hbase hcaps a

end

/-- Settles O36: a host write changes one byte of `IBUF`, a read none, and an issue what its command covers. -/
theorem aByteStaysUntilItsNextWriter : Obligations.AByteStaysUntilItsNextWriter := by
  intro s t req rest a hreq hstep hreset
  rw [step_cons hreq] at hstep
  obtain ⟨x, b, rfl, -, rfl⟩ | ⟨r, -, -, -, rfl⟩ | ⟨cw, rfl, h⟩ | ⟨rfl, -⟩ := perform_cases hstep
  · refine ⟨fun hwrite _ => ?_, fun _ => rfl⟩
    have hne : a ≠ x := fun hax => hwrite b (hax ▸ rfl)
    rw [State.withIbuf_write_ibufByte, if_neg hne, State.withRequests_ibufByte]
  · exact ⟨fun _ _ => rfl, fun _ => rfl⟩
  · refine ⟨fun _ hcover => ?ibuf, fun hcover => ?obuf⟩
    case ibuf =>
      exact (exec_ibufByte_of_uncovered h fun len => hcover cw len rfl).trans (State.withRequests_ibufByte ..)
    case obuf =>
      exact (exec_obufByte_of_uncovered h (decode_wellFormed cw) fun len => hcover cw len rfl).trans
        (State.withRequests_obufByte ..)
  · exact absurd rfl hreset

end Machine

end Sys2Proof
end

section
/-! PROOF. The command word (30_encoding.md R50 to R54): decoding splits a word into the match of its row and its low
bits, encoding puts them together. -/

namespace Sys2Proof

/-! ## A word and its two parts -/

/-- The low bits of a well-formed command fit their field, and its word is its row's match plus them (R54). -/
theorem encode_toNat {i : Instr} (h : i.wellFormed = true) :
    i.lowBits < 2 ^ 30 ∧ (encode i).toNat = i.tableMatch + i.lowBits := by
  cases i with
  | enc len => exact Laws.TableRow.enc len h
  | dec len => exact Laws.TableRow.dec len h
  | flt len => exact Laws.TableRow.flt len h
  | illegal low => exact Laws.TableRow.illegal low h

/-- The operation of a word, read off its value (R50). -/
theorem opField_eq_iff (cw : Word) (op : BitVec 2) : opField cw = op ↔ cw.toNat / 2 ^ 30 % 4 = op.toNat := by
  rw [← opField_toNat, BitVec.toNat_inj]

/-- A word has one of the four operations, read off its value (R51). -/
theorem op_cases (cw : Word) : cw.toNat / 2 ^ 30 % 4 = 0 ∨ cw.toNat / 2 ^ 30 % 4 = 1 ∨
    cw.toNat / 2 ^ 30 % 4 = 2 ∨ cw.toNat / 2 ^ 30 % 4 = 3 := by
  omega

section
variable {cw : Word}

theorem decode_eq_enc (h : cw.toNat / 2 ^ 30 % 4 = 1) : decode cw = .enc (cw.toNat % 2 ^ 30) := by
  rw [decode_of_op_one ((opField_eq_iff cw 0b01).2 h), lenField_toNat]

theorem decode_eq_dec (h : cw.toNat / 2 ^ 30 % 4 = 2) : decode cw = .dec (cw.toNat % 2 ^ 30) := by
  rw [decode_of_op_two ((opField_eq_iff cw 0b10).2 h), lenField_toNat]

theorem decode_eq_flt (h : cw.toNat / 2 ^ 30 % 4 = 3) : decode cw = .flt (cw.toNat % 2 ^ 30) := by
  rw [decode_of_op_three ((opField_eq_iff cw 0b11).2 h), lenField_toNat]

theorem decode_eq_illegal (h : cw.toNat / 2 ^ 30 % 4 = 0) : decode cw = .illegal (lenField cw) :=
  decode_of_op_zero ((opField_eq_iff cw 0b00).2 h)

/-- Exactly the words with operation 0 are illegal (R53). -/
theorem decode_illegal_iff : (∃ low, decode cw = .illegal low) ↔ cw.toNat / 2 ^ 30 % 4 = 0 := by
  refine ⟨fun ⟨low, hlow⟩ => ?_, fun h => ⟨_, decode_eq_illegal h⟩⟩
  obtain h | h | h | h := op_cases cw
  · exact h
  · cases (decode_eq_enc h).symm.trans hlow
  · cases (decode_eq_dec h).symm.trans hlow
  · cases (decode_eq_flt h).symm.trans hlow

/-- A word is the match of the row it decodes to plus its low bits. -/
theorem decode_toNat (cw : Word) : (decode cw).tableMatch + (decode cw).lowBits = cw.toNat := by
  have hcw := cw.isLt
  obtain h | h | h | h := op_cases cw
  · rw [decode_eq_illegal h, Instr.tableMatch, Instr.lowBits, lenField_toNat]
    omega
  · rw [decode_eq_enc h, Instr.tableMatch, Instr.lowBits]
    omega
  · rw [decode_eq_dec h, Instr.tableMatch, Instr.lowBits]
    omega
  · rw [decode_eq_flt h, Instr.tableMatch, Instr.lowBits]
    omega

/-- A word that is a command's match plus its low bits decodes to that command. -/
theorem decode_eq_of_toNat {i : Instr} (hlow : i.lowBits < 2 ^ 30) (h : cw.toNat = i.tableMatch + i.lowBits) :
    decode cw = i := by
  cases i <;> rw [Instr.lowBits] at hlow <;> rw [Instr.tableMatch, Instr.lowBits] at h
  case enc len => rw [decode_eq_enc (by omega), show cw.toNat % 2 ^ 30 = len by omega]
  case dec len => rw [decode_eq_dec (by omega), show cw.toNat % 2 ^ 30 = len by omega]
  case flt len => rw [decode_eq_flt (by omega), show cw.toNat % 2 ^ 30 = len by omega]
  case illegal low =>
    have hfield : lenField cw = low := BitVec.eq_of_toNat_eq ((lenField_toNat cw).trans (by omega))
    rw [decode_eq_illegal (by omega), hfield]

end

/-! ## The two round trips -/

/-- Decoding the word of a well-formed command gives the command. -/
theorem decode_encode {i : Instr} (h : i.wellFormed = true) : decode (encode i) = i :=
  decode_eq_of_toNat (encode_toNat h).1 (encode_toNat h).2

/-- Encoding what a word decodes to gives the word. -/
theorem encode_decode (cw : Word) : encode (decode cw) = cw :=
  BitVec.eq_of_toNat_eq ((encode_toNat (decode_wellFormed cw)).2.trans (decode_toNat cw))

/-- Settles O1: both round trips, a word taken as its row's match plus its low bits. -/
theorem decodeAndEncodeAreInverse : Obligations.DecodeAndEncodeAreInverse :=
  ⟨fun _ => decode_encode, fun cw => ⟨decode_wellFormed cw, encode_decode cw⟩⟩

/-! ## The decoder by match and mask -/

/-- The mask keeps the operation and clears the length. -/
theorem and_mask_eq (cw : Word) : cw &&& 0xC0000000#32 = opField cw ++ 0#30 := by
  have hsplit : cw = opField cw ++ lenField cw := by
    rw [opField, lenField, BitVec.extractLsb'_append_extractLsb'_eq_extractLsb' (by rfl), BitVec.extractLsb'_eq_self]
  calc cw &&& 0xC0000000#32
      = (opField cw ++ lenField cw) &&& (BitVec.allOnes 2 ++ 0#30) := congrArg (· &&& _) hsplit
    _ = opField cw ++ 0#30 := by rw [BitVec.and_append, BitVec.and_allOnes, BitVec.and_zero]

/-- A masked word equal to a row's match has the row's operation. -/
theorem op_of_and_mask {cw : Word} (op : BitVec 2) (h : cw &&& 0xC0000000#32 = op ++ 0#30) :
    cw.toNat / 2 ^ 30 % 4 = op.toNat :=
  (opField_eq_iff cw op).1 ((BitVec.append_left_inj _).1 ((and_mask_eq cw).symm.trans h))

/-- Settles O3: the match and mask read the operation, and the encoder adds the length to the match. -/
theorem decoderFollowsItsMatchAndMask : Obligations.DecoderFollowsItsMatchAndMask := by
  refine ⟨fun cw => ⟨fun h => decode_eq_enc (op_of_and_mask 0b01 h), fun h => decode_eq_dec (op_of_and_mask 0b10 h),
    fun h => decode_eq_flt (op_of_and_mask 0b11 h), fun h => decode_illegal_iff.2 (op_of_and_mask 0b00 h)⟩,
    fun len hlen => ?encoder, rfl, rfl, rfl, rfl, ⟨0, rfl⟩, 0x3FFFFFFF#30, rfl⟩
  case encoder =>
    have hfits : lenFits len = true := (lenFits_iff len).2 (by omega)
    exact ⟨(encode_toNat (i := .enc len) hfits).2, (encode_toNat (i := .dec len) hfits).2,
      (encode_toNat (i := .flt len) hfits).2⟩

/-! ## The classification, and what an issued word runs -/

/-- Settles O2: the operation decides the row, and every length is reached by the encoder. -/
theorem everyWordIsClassifiedByItsOpField : Obligations.EveryWordIsClassifiedByItsOpField := by
  refine fun cw => ⟨decode_eq_enc, decode_eq_dec, decode_eq_flt, decode_illegal_iff, fun h s => ?errOp,
    fun len hlen => ?lengths⟩
  case errOp =>
    rw [decode_eq_illegal h]
    rfl
  case lengths =>
    have hfits : lenFits len = true := (lenFits_iff len).2 hlen
    exact ⟨encode (.enc len), encode (.dec len), encode (.flt len), decode_encode (i := .enc len) hfits,
      decode_encode (i := .dec len) hfits, decode_encode (i := .flt len) hfits⟩

/-- Settles O4: the word of each of the nine commands is the written one. -/
theorem writtenWordsDecode : Obligations.WrittenWordsDecode :=
  ⟨decode_eq_enc rfl, decode_eq_enc rfl, decode_eq_enc rfl, decode_eq_dec rfl, decode_eq_dec rfl, decode_eq_flt rfl,
    decode_eq_flt rfl, decode_eq_illegal rfl, decode_eq_illegal rfl⟩

/-- Settles O30: the issue runs the decoded command, which is the encoded one. -/
theorem stepRunsTheEncodedCommand : Obligations.StepRunsTheEncodedCommand := by
  intro s i rest hwf
  have hstep := Machine.stepExecutesTheIssuedCommand.1 { s with requests := .issue (encode i) :: rest } _ rest rfl
  rwa [decode_encode hwf] at hstep

end Sys2Proof
end

section
/-! PROOF. The data code (30_encoding.md R57 to R65): an encoded group is known by its bytes being in the alphabet and by
their weighted sum, which also decides the order of groups and the value they decode to. -/

namespace Sys2Proof.Machine

/-! ## Digits -/

/-- The digits weighted by the powers of 85 sum to the value exactly (R61 b). -/
theorem digits_sum (V : Word) :
    V.toNat = digit V 0 * 52200625 + digit V 1 * 614125 + digit V 2 * 7225 + digit V 3 * 85 + digit V 4 := by
  obtain ⟨-, e1, e2, e3, e4⟩ := digit_eq_div V
  rw [digit_zero_eq, e1, e2, e3, e4]
  omega

/-- The leading digit is at most 82 (R61 c). -/
theorem digit_zero_le (V : Word) : digit V 0 ≤ 82 := by
  have hsum := digits_sum V
  have hV := V.isLt
  omega

/-- A symbol is an in-alphabet byte (R57). -/
theorem inAlphabet_symbol {d : Nat} (h : d < 85) : InAlphabet (symbol d) :=
  (keep_iff _).1 (keep_symbol h)

/-- An in-alphabet byte is the symbol of its value less 33. -/
theorem symbol_sub_of_inAlphabet {c : Byte} (h : InAlphabet c) : symbol (c.toNat - 33) = c := by
  obtain ⟨hlo, hhi⟩ := h
  apply BitVec.eq_of_toNat_eq
  rw [symbol_toNat (by omega)]
  omega

/-- Every byte of an encoded group is in the alphabet (R61 a). -/
theorem inAlphabet_of_mem_encGroup {V : Word} {b : Byte} (hb : b ∈ encGroup V) : InAlphabet b := by
  simp only [encGroup, List.mem_cons, List.not_mem_nil, or_false] at hb
  rcases hb with rfl | rfl | rfl | rfl | rfl <;> exact inAlphabet_symbol (digit_lt V _)

/-- Settles O6, with the digits of R59. -/
theorem encGroupIsTheBase85Expansion : Obligations.EncGroupIsTheBase85Expansion := by
  intro V
  have hle (k : Nat) : digit V k ≤ 84 := Nat.le_of_lt_succ (digit_lt V k)
  exact ⟨digit V 0, digit V 1, digit V 2, digit V 3, digit V 4, rfl, rfl, rfl, rfl, rfl, rfl, digit_zero_le V,
    hle 1, hle 2, hle 3, hle 4, digits_sum V, fun _ => inAlphabet_of_mem_encGroup⟩

/-- Dividing from the low end takes the digits off one by one. -/
theorem digitsFromLowEnd_eq (V : Word) :
    digitsFromLowEnd V.toNat = [digit V 0, digit V 1, digit V 2, digit V 3, digit V 4] := by
  obtain ⟨-, e1, e2, e3, e4⟩ := digit_eq_div V
  rw [digit_zero_eq, e1, e2, e3, e4]
  rfl

/-- Subtracting from the high end: the rest below a digit is less than its weight, so the quotient is that digit. -/
theorem digitsFromHighEnd_eq (V : Word) :
    digitsFromHighEnd V.toNat = [digit V 0, digit V 1, digit V 2, digit V 3, digit V 4] := by
  have hsum := digits_sum V
  have h1 := digit_lt V 1
  have h2 := digit_lt V 2
  have h3 := digit_lt V 3
  have h4 := digit_lt V 4
  have q0 : V.toNat / 52200625 = digit V 0 := by omega
  have q1 : (V.toNat - digit V 0 * 52200625) / 614125 = digit V 1 := by omega
  have q2 : (V.toNat - digit V 0 * 52200625 - digit V 1 * 614125) / 7225 = digit V 2 := by omega
  have q3 : (V.toNat - digit V 0 * 52200625 - digit V 1 * 614125 - digit V 2 * 7225) / 85 = digit V 3 := by omega
  have r4 : V.toNat - digit V 0 * 52200625 - digit V 1 * 614125 - digit V 2 * 7225 - digit V 3 * 85 = digit V 4 := by
    omega
  simp only [digitsFromHighEnd, q0, q1, q2, q3, r4]

/-- Settles O8: the two ways of R61 (d). -/
theorem otherWaysToTheDigitsAgree : Obligations.OtherWaysToTheDigitsAgree :=
  fun V => ⟨digitsFromLowEnd_eq V, digitsFromHighEnd_eq V⟩

/-- Settles O13: `keep` is the range test, and the counts are taken over all 256 byte values. -/
theorem keepAcceptsExactlyTheAlphabet : Obligations.KeepAcceptsExactlyTheAlphabet :=
  ⟨keep_iff, by decide +kernel, by decide +kernel⟩

/-! ## The value of five bytes -/

section
variable {c0 c1 c2 c3 c4 : Byte}

/-- The decoder's value is the integer sum reduced once (R62). -/
theorem decGroup_toNat (c0 c1 c2 c3 c4 : Byte) :
    ((decGroup c0 c1 c2 c3 c4).toNat : Int) = groupSum c0 c1 c2 c3 c4 % 2 ^ 32 := by
  rw [decGroup_eq_ofNat, BitVec.toNat_ofNat, groupSum]
  omega

/-- The same value with every `c_j - 33` reduced first, as the 32-bit unit computes it (R62). -/
theorem decGroup_toNat_wrapped (c0 c1 c2 c3 c4 : Byte) :
    (decGroup c0 c1 c2 c3 c4).toNat
      = ((c0.toNat + 2 ^ 32 - 33) % 2 ^ 32 * 52200625 + (c1.toNat + 2 ^ 32 - 33) % 2 ^ 32 * 614125
          + (c2.toNat + 2 ^ 32 - 33) % 2 ^ 32 * 7225 + (c3.toNat + 2 ^ 32 - 33) % 2 ^ 32 * 85
          + (c4.toNat + 2 ^ 32 - 33) % 2 ^ 32 * 1) % 2 ^ 32 := by
  rw [decGroup_eq_ofNat, BitVec.toNat_ofNat]
  omega

/-- Five in-alphabet bytes sum to at least 0, and to at most what `"uuuuu"` sums to. -/
theorem groupSum_bounds (h : ∀ c ∈ [c0, c1, c2, c3, c4], InAlphabet c) :
    0 ≤ groupSum c0 c1 c2 c3 c4 ∧ groupSum c0 c1 c2 c3 c4 ≤ 4437053124 := by
  simp only [List.forall_mem_cons, InAlphabet] at h
  rw [groupSum]
  omega

/-- A sum of in-alphabet bytes that fits 32 bits is the decoded value (R62). -/
theorem decGroup_toNat_of_le (h : ∀ c ∈ [c0, c1, c2, c3, c4], InAlphabet c)
    (hle : groupSum c0 c1 c2 c3 c4 ≤ 2 ^ 32 - 1) :
    ((decGroup c0 c1 c2 c3 c4).toNat : Int) = groupSum c0 c1 c2 c3 c4 := by
  rw [decGroup_toNat]
  exact Int.emod_eq_of_lt (groupSum_bounds h).1 (Int.lt_of_le_sub_one hle)

/-- A sum of in-alphabet bytes that does not fit 32 bits wraps once (R64). -/
theorem decGroup_toNat_of_gt (h : ∀ c ∈ [c0, c1, c2, c3, c4], InAlphabet c)
    (hgt : 4294967295 < groupSum c0 c1 c2 c3 c4) :
    ((decGroup c0 c1 c2 c3 c4).toNat : Int) = groupSum c0 c1 c2 c3 c4 - 4294967296 := by
  have hbounds := groupSum_bounds h
  rw [decGroup_toNat]
  omega

/-- Settles O9: the 32-bit form, the integer form, and the sum itself where it fits. -/
theorem decGroupIsTheWeightedSum : Obligations.DecGroupIsTheWeightedSum :=
  fun c0 c1 c2 c3 c4 => ⟨decGroup_toNat_wrapped c0 c1 c2 c3 c4, decGroup_toNat c0 c1 c2 c3 c4, decGroup_toNat_of_le⟩

/-- Settles O10: multiplied out, Horner's form has the weights as powers of 85. -/
theorem hornerFormAgrees : Obligations.HornerFormAgrees := by
  intro c0 c1 c2 c3 c4
  have hpow (k : Nat) (hk : k < 5) : BitVec.ofNat 32 (weight k) = 85#32 ^ (4 - k) := by
    interval_cases k <;> rfl
  rw [decGroup, hpow 0 (by decide), hpow 1 (by decide), hpow 2 (by decide), hpow 3 (by decide),
    hpow 4 (by decide), decGroupHorner]
  ring

/-! ## Encoded groups -/

/-- The group of `V` is the one whose bytes are in the alphabet and sum to `V` (R60, R61). -/
theorem encGroup_eq_iff (V : Word) : encGroup V = [c0, c1, c2, c3, c4] ↔
    (∀ c ∈ [c0, c1, c2, c3, c4], InAlphabet c) ∧ groupSum c0 c1 c2 c3 c4 = V.toNat := by
  constructor
  · intro h
    refine ⟨fun c hc => inAlphabet_of_mem_encGroup (h ▸ hc), ?_⟩
    simp only [encGroup, List.cons.injEq, and_true] at h
    obtain ⟨rfl, rfl, rfl, rfl, rfl⟩ := h
    have hsum := digits_sum V
    rw [groupSum, symbol_toNat (digit_lt V 0), symbol_toNat (digit_lt V 1), symbol_toNat (digit_lt V 2),
      symbol_toNat (digit_lt V 3), symbol_toNat (digit_lt V 4)]
    omega
  · rintro ⟨halpha, hsum⟩
    simp only [List.forall_mem_cons, List.not_mem_nil] at halpha
    obtain ⟨h0, h1, h2, h3, h4, -⟩ := halpha
    have hdigits := digits_unique (V := V) (x0 := c0.toNat - 33) (x1 := c1.toNat - 33) (x2 := c2.toNat - 33)
      (x3 := c3.toNat - 33) (x4 := c4.toNat - 33) (by omega) (by omega) (by omega) (by omega) (by omega)
      (by rw [groupSum] at hsum; omega)
    obtain ⟨e0, e1, e2, e3, e4⟩ := hdigits
    rw [encGroup, e0, e1, e2, e3, e4, symbol_sub_of_inAlphabet h0, symbol_sub_of_inAlphabet h1,
      symbol_sub_of_inAlphabet h2, symbol_sub_of_inAlphabet h3, symbol_sub_of_inAlphabet h4]

/-- Decoding the group of `V` gives `V`: its sum fits 32 bits (R64). -/
theorem decGroup_of_encGroup {V : Word} (h : encGroup V = [c0, c1, c2, c3, c4]) : decGroup c0 c1 c2 c3 c4 = V := by
  obtain ⟨halpha, hsum⟩ := (encGroup_eq_iff V).1 h
  have hV := V.isLt
  have hdec := decGroup_toNat_of_le halpha (by omega)
  exact BitVec.eq_of_toNat_eq (by omega)

/-- Settles O11: the alphabet and the sum determine the decoded value. -/
theorem decodingAnEncodedGroupGivesItBack : Obligations.DecodingAnEncodedGroupGivesItBack :=
  fun _ _ _ _ _ _ => decGroup_of_encGroup

/-- A canonical group is the group of the value it decodes to. -/
theorem canonical_iff_encGroup_decGroup :
    Canonical [c0, c1, c2, c3, c4] ↔ encGroup (decGroup c0 c1 c2 c3 c4) = [c0, c1, c2, c3, c4] := by
  refine ⟨fun ⟨V, hV⟩ => ?_, fun h => ⟨_, h⟩⟩
  rw [decGroup_of_encGroup hV, hV]

/-- The canonical groups are those in the alphabet whose sum fits 32 bits (R64). -/
theorem canonical_iff_groupSum_le : Canonical [c0, c1, c2, c3, c4] ↔
    (∀ c ∈ [c0, c1, c2, c3, c4], InAlphabet c) ∧ groupSum c0 c1 c2 c3 c4 ≤ 4294967295 := by
  constructor
  · rintro ⟨V, hV⟩
    obtain ⟨halpha, hsum⟩ := (encGroup_eq_iff V).1 hV
    have hlt := V.isLt
    exact ⟨halpha, by omega⟩
  · rintro ⟨halpha, hle⟩
    exact canonical_iff_encGroup_decGroup.2 ((encGroup_eq_iff _).2 ⟨halpha, (decGroup_toNat_of_le halpha hle).symm⟩)

end

/-! ## The order of groups -/

/-- Lexicographic order is decided by the first byte, and by the rest where that is the same. -/
theorem precedes_cons_iff (a b : Byte) (G H : List Byte) :
    Precedes (a :: G) (b :: H) ↔ a.toNat < b.toNat ∨ a.toNat = b.toNat ∧ Precedes G H := by
  rw [Precedes, List.cons_lex_cons_iff, BitVec.toNat_inj, Precedes]

/-- Of two groups in the alphabet the one that comes first has the smaller sum: what the bytes after position `k` add is
always less than `weight k` (R61 e). -/
theorem precedes_iff_groupSum_lt {a0 a1 a2 a3 a4 b0 b1 b2 b3 b4 : Byte}
    (ha : ∀ c ∈ [a0, a1, a2, a3, a4], InAlphabet c) (hb : ∀ c ∈ [b0, b1, b2, b3, b4], InAlphabet c) :
    Precedes [a0, a1, a2, a3, a4] [b0, b1, b2, b3, b4] ↔
      groupSum a0 a1 a2 a3 a4 < groupSum b0 b1 b2 b3 b4 := by
  have hnil : ¬ Precedes [] [] := nofun
  simp only [List.forall_mem_cons, InAlphabet] at ha hb
  simp only [precedes_cons_iff, hnil, and_false, or_false, groupSum]
  omega

/-- Settles O7: both orders are the order of the sums, and equal groups have equal sums. -/
theorem encGroupPreservesOrder : Obligations.EncGroupPreservesOrder := by
  intro V W
  obtain ⟨hV, hVsum⟩ := (encGroup_eq_iff V).1 rfl
  obtain ⟨hW, hWsum⟩ := (encGroup_eq_iff W).1 rfl
  refine ⟨?_, fun h => ?_⟩
  · rw [← Int.ofNat_lt, ← hVsum, ← hWsum]
    exact (precedes_iff_groupSum_lt hV hW).symm
  · exact (decGroup_of_encGroup (V := V) h).symm.trans (decGroup_of_encGroup (V := W) rfl)

/-- Settles O12: a canonical group is one whose sum fits 32 bits, and `"s8W-!"` is the last of these. -/
theorem canonicalGroupsAreThoseBelowTwoToThe32 : Obligations.CanonicalGroupsAreThoseBelowTwoToThe32 := by
  intro c0 c1 c2 c3 c4
  refine ⟨canonical_iff_groupSum_le, canonical_iff_groupSum_le.trans (and_congr_right fun halpha => ?last),
    canonical_iff_encGroup_decGroup.1, fun halpha hnot => ?wraps⟩
  case last =>
    have hlast : groupSum 0x73#8 0x38#8 0x57#8 0x2D#8 0x21#8 = 4294967295 := by decide
    rw [precedes_iff_groupSum_lt (by decide) halpha, hlast, not_lt]
  case wraps =>
    have hgt : 4294967295 < groupSum c0 c1 c2 c3 c4 :=
      not_le.1 fun hle => hnot (canonical_iff_groupSum_le.2 ⟨halpha, hle⟩)
    have hdec := decGroup_toNat_of_gt halpha hgt
    have hbounds := groupSum_bounds halpha
    exact ⟨hdec, by omega, mt canonical_iff_encGroup_decGroup.2 hnot⟩

end Sys2Proof.Machine
end

section
/-! PROOF. The groups of a block are independent (30_encoding.md R67): what `ENC` and `DEC` write in group `g` is computed
from group `g` of their input. -/

namespace Sys2Proof.Machine

section
variable {len g : Nat} {s s' t : State}

/-- An error never reports `STATUS` 0 (R100). -/
theorem statusOf_ne_zero (e : ErrCode) : statusOf e ≠ 0 := by
  cases e <;> decide

/-- Byte `k` of group `g` after an `ENC` that completed (R70). -/
theorem exec_enc_obufByte {k : Nat} (h : exec (.enc len) s = .next t) (hstatus : t.status = 0) (hg : g < len / 4)
    (hk : k < 5) : t.obufByte (5 * g + k) = symbol (digit (s.rawGroup g) k) := by
  obtain ⟨e, rfl⟩ | ⟨len', hi, -, rfl⟩ | ⟨len', hi, -⟩ | ⟨len', hi, -⟩ := exec_next_cases h
  · exact absurd hstatus (statusOf_ne_zero e)
  · obtain rfl := Instr.enc.inj hi
    exact s.encoded_obufByte _ _ hg hk
  · cases hi
  · cases hi

/-- Byte `k` of group `g` after a `DEC` that completed (R80). -/
theorem exec_dec_obufByte {k : Nat} (h : exec (.dec len) s = .next t) (hstatus : t.status = 0) (hg : g < len / 5)
    (hk : k < 4) : t.obufByte (4 * g + k) = ((bytesBe32 (s.encodedGroup g))[k]?).getD 0 := by
  obtain ⟨e, rfl⟩ | ⟨len', hi, -⟩ | ⟨len', hi, -, rfl⟩ | ⟨len', hi, -⟩ := exec_next_cases h
  · exact absurd hstatus (statusOf_ne_zero e)
  · cases hi
  · obtain rfl := Instr.dec.inj hi
    exact s.decoded_obufByte _ _ hg hk
  · cases hi

/-- A raw group is its own four bytes (R37). -/
theorem State.rawGroup_congr_group (h : ∀ k, k < 4 → s'.ibufByte (4 * g + k) = s.ibufByte (4 * g + k)) :
    s'.rawGroup g = s.rawGroup g := by
  have h0 : s'.ibufByte (4 * g) = s.ibufByte (4 * g) := h 0 (by decide)
  rw [State.rawGroup, State.rawGroup, h0, h 1 (by decide), h 2 (by decide), h 3 (by decide)]

/-- An encoded group is its own five bytes (R37). -/
theorem State.encodedGroup_congr_group (h : ∀ k, k < 5 → s'.ibufByte (5 * g + k) = s.ibufByte (5 * g + k)) :
    s'.encodedGroup g = s.encodedGroup g := by
  have h0 : s'.ibufByte (5 * g) = s.ibufByte (5 * g) := h 0 (by decide)
  rw [State.encodedGroup, State.encodedGroup, h0, h 1 (by decide), h 2 (by decide), h 3 (by decide), h 4 (by decide)]

end

/-- Settles O23: both commands write a group that is a function of the input group alone. -/
theorem groupsAreIndependent : Obligations.GroupsAreIndependent := by
  intro len len' g s s' t t'
  refine ⟨fun hs hs' hg hg' h h' hread k hk => ?enc, fun hs hs' hg hg' h h' hread k hk => ?dec⟩
  case enc =>
    rw [exec_enc_obufByte h' hs' hg' hk, exec_enc_obufByte h hs hg hk, State.rawGroup_congr_group hread]
  case dec =>
    rw [exec_dec_obufByte h' hs' hg' hk, exec_dec_obufByte h hs hg hk, State.encodedGroup_congr_group hread]

end Sys2Proof.Machine
end

section
/-! PROOF. What `ENC` does (40_encode.md R70, R71): the block it writes, that `DEC` returns the original from it,
and that `FLT` leaves it as it is. -/

namespace Sys2Proof.Machine

/-! ## One group -/

/-- The five symbols of a group in order (R60). -/
theorem encGroup_eq_map (V : Word) : encGroup V = (List.range 5).map fun k => symbol (digit V k) := rfl

section
variable {s : State} {g k : Nat}

/-- Five bytes of `IBUF` that are the symbols of `V` decode to `V` (R64). -/
theorem State.encodedGroup_of_symbols {V : Word} (h : ∀ k, k < 5 → s.ibufByte (5 * g + k) = symbol (digit V k)) :
    s.encodedGroup g = V := by
  have hgroup : encGroup V = (List.range 5).map fun k => s.ibufByte (5 * g + k) :=
    (encGroup_eq_map V).trans (List.map_congr_left fun k hk => (h k (List.mem_range.1 hk)).symm)
  exact decGroup_of_encGroup hgroup

/-- The bytes of a raw group's value are the bytes it was read from (R32, R37). -/
theorem State.bytesBe32_rawGroup (hk : k < 4) : ((bytesBe32 (s.rawGroup g))[k]?).getD 0 = s.ibufByte (4 * g + k) := by
  rw [State.rawGroup, bytesBe32_be32]
  interval_cases k <;> rfl

end

/-! ## The commands on a whole block -/

section
variable {len : Nat} {s t : State}

/-- The word `0x40000000 + len` is the command `ENC len` (R54). -/
theorem decode_enc_word (hlen : len < 2 ^ 30) : decode (BitVec.ofNat 32 (0x40000000 + len)) = .enc len :=
  decode_eq_of_toNat (i := .enc len) hlen (by rw [BitVec.toNat_ofNat, Instr.tableMatch, Instr.lowBits]; omega)

/-- `RLEN` holds the length of an `ENC` result whole (R14, R52). -/
theorem toNat_ofNat_encLength (hlen : len < 2 ^ 30) : (BitVec.ofNat 32 (5 * (len / 4))).toNat = 5 * (len / 4) := by
  rw [BitVec.toNat_ofNat]
  omega

/-- `ENC` of a whole block that fits both buffers completes: its effect on the state (R70). -/
theorem exec_enc_completes (halign : len % 4 = 0) (hin : len ≤ s.caps.ibufBytes)
    (hout : len / 4 * 5 ≤ s.caps.obufBytes) : exec (.enc len) s =
      .next ((s.withObuf (s.encoded (len / 4))).ended (BitVec.ofNat 32 (5 * (len / 4))) statusOk) :=
  execEnc_ok (groupCommandError_eq_none.2 ⟨halign, hin, hout⟩)

/-- After an `ENC` that completes `STATUS` is 0 and `RLEN` the length of the result (R70). -/
theorem exec_enc_status_rlen (halign : len % 4 = 0) (hin : len ≤ s.caps.ibufBytes)
    (hout : len / 4 * 5 ≤ s.caps.obufBytes) (hlen : len < 2 ^ 30) (h : exec (.enc len) s = .next t) :
    t.status = 0 ∧ t.rlen.toNat = 5 * (len / 4) := by
  obtain rfl := Host.Outcome.next.inj ((exec_enc_completes halign hin hout).symm.trans h)
  exact ⟨rfl, toNat_ofNat_encLength hlen⟩

/-- Every byte of an `ENC` result is a symbol of the group it stands in (R70). -/
theorem exec_enc_inAlphabet {a : Nat} (h : exec (.enc len) s = .next t) (hstatus : t.status = 0)
    (ha : a < 5 * (len / 4)) : InAlphabet (t.obufByte a) := by
  have hbyte := exec_enc_obufByte (g := a / 5) h hstatus (by omega) (Nat.mod_lt a (by decide))
  rw [Nat.div_add_mod] at hbyte
  exact hbyte ▸ inAlphabet_symbol (digit_lt _ _)

/-- The first byte of every group of an `ENC` result is at most `"s"` (R61 c, R71). -/
theorem exec_enc_first_le {g : Nat} (h : exec (.enc len) s = .next t) (hstatus : t.status = 0) (hg : g < len / 4) :
    (t.obufByte (5 * g)).toNat ≤ 115 := by
  have hbyte : t.obufByte (5 * g) = symbol (digit (s.rawGroup g) 0) :=
    exec_enc_obufByte (k := 0) h hstatus hg (by decide)
  have hdigit := digit_zero_le (s.rawGroup g)
  rw [hbyte, symbol_toNat (digit_lt _ _)]
  omega

/-- `DEC` of a whole block that fits both buffers completes: its effect on the state (R80). -/
theorem exec_dec_completes (halign : len % 5 = 0) (hin : len ≤ s.caps.ibufBytes)
    (hout : len / 5 * 4 ≤ s.caps.obufBytes) : exec (.dec len) s =
      .next ((s.withObuf (s.decoded (len / 5))).ended (BitVec.ofNat 32 (4 * (len / 5))) statusOk) :=
  execDec_ok (groupCommandError_eq_none.2 ⟨halign, hin, hout⟩)

/-! ## Filtering a block in the alphabet -/

/-- A block in the alphabet is kept whole (R90). -/
theorem State.keptBytes_of_inAlphabet (h : ∀ a, a < len → InAlphabet (s.ibufByte a)) :
    s.keptBytes len = s.inputBlock len := by
  refine List.filter_eq_self.2 fun b hb => ?_
  obtain ⟨a, ha, rfl⟩ := List.mem_map.1 hb
  exact (keep_iff _).2 (h a (List.mem_range.1 ha))

/-- `FLT` of a block in the alphabet changes no byte of `IBUF` (R93 f, h). -/
theorem exec_flt_of_inAlphabet (hin : len ≤ s.caps.ibufBytes) (h : ∀ a, a < len → InAlphabet (s.ibufByte a)) :
    ∃ v, exec (.flt len) s = .next v ∧ v.status = 0 ∧ v.rlen = BitVec.ofNat 32 len ∧
      ∀ a, v.ibufByte a = s.ibufByte a := by
  have hkept := State.keptBytes_of_inAlphabet h
  refine ⟨_, execFlt_ok hin, rfl, ?rlen, fun a => ?byte⟩
  case rlen => rw [State.ended_rlen, hkept, State.inputBlock_length]
  case byte =>
    simp only [State.filtered_ibufByte, hkept, State.inputBlock_getElem, State.inputBlock_length]
    split_ifs <;> rfl

end

/-! ## The statements -/

/-- Settles O14: the checks in their order, then the result group by group and its frame. -/
theorem encEncodesTheBlock : Obligations.EncEncodesTheBlock := by
  refine fun len s => ⟨decode_enc_word, fun halign => execEnc_err (groupCommandError_align halign),
    fun halign hrange => execEnc_err (groupCommandError_range halign hrange), fun halign hin hout => ?result,
    by decide⟩
  case result =>
    refine ⟨_, exec_enc_completes halign hin hout, fun g hg => ?group, fun a ha => s.encoded_obufByte_after _ _ ha,
      fun _ => rfl, toNat_ofNat_encLength, rfl⟩
    rw [← State.rawGroup, encGroup_eq_map]
    exact List.map_congr_left fun k hk => s.encoded_obufByte _ _ hg (List.mem_range.1 hk)

/-- Settles O24: every group of the copied result decodes to the raw group it was encoded from. -/
theorem decReturnsWhatEncEncoded : Obligations.DecReturnsWhatEncEncoded := by
  intro len s t u halign hin hout hlen h hcaps hfits hcopy
  obtain ⟨hstatus, hrlen⟩ := exec_enc_status_rlen halign hin hout hlen h
  rw [hrlen] at hfits hcopy ⊢
  have hgroups : 5 * (len / 4) / 5 = len / 4 := Nat.mul_div_cancel_left _ (by decide)
  have hgroup (g : Nat) (hg : g < len / 4) : u.encodedGroup g = s.rawGroup g :=
    State.encodedGroup_of_symbols fun k hk =>
      (hcopy (5 * g + k) (by omega)).trans (exec_enc_obufByte h hstatus hg hk)
  refine ⟨_, exec_dec_completes (Nat.mul_mod_right 5 _) hfits (by rw [hcaps]; omega), rfl, ?rlen, fun a ha => ?byte⟩
  case rlen =>
    rw [State.ended_rlen, BitVec.toNat_ofNat]
    omega
  case byte =>
    have hg : a / 4 < len / 4 := by omega
    have hk : a % 4 < 4 := Nat.mod_lt a (by decide)
    rw [← Nat.div_add_mod a 4, State.decoded_obufByte _ _ _ (hgroups.symm ▸ hg) hk, hgroup _ hg,
      State.bytesBe32_rawGroup hk]

/-- Settles O25: the result is made of symbols, and `FLT` keeps a block of these whole. -/
theorem encOutputPassesTheFilter : Obligations.EncOutputPassesTheFilter := by
  intro len s t halign hin hout hlen h
  obtain ⟨hstatus, hrlen⟩ := exec_enc_status_rlen halign hin hout hlen h
  have halpha (a : Nat) (ha : a < t.rlen.toNat) : InAlphabet (t.obufByte a) :=
    exec_enc_inAlphabet h hstatus (hrlen ▸ ha)
  refine ⟨halpha, fun g => exec_enc_first_le h hstatus, fun u hfits hcopy => ?filter⟩
  case filter =>
    obtain ⟨v, hflt, hok, hvlen, hsame⟩ := exec_flt_of_inAlphabet hfits fun a ha => hcopy a ha ▸ halpha a ha
    rw [BitVec.ofNat_toNat, BitVec.setWidth_eq] at hvlen
    exact ⟨v, hflt, hok, hvlen, hsame⟩

end Sys2Proof.Machine
end

section
/-! PROOF. What `DEC` does (41_decode.md R80): its word, and the block it writes from any bytes. -/

namespace Sys2Proof.Machine

section
variable {len : Nat}

/-- The word `0x80000000 + len` is the command `DEC len` (R54). -/
theorem decode_dec_word (hlen : len < 2 ^ 30) : decode (BitVec.ofNat 32 (0x80000000 + len)) = .dec len :=
  decode_eq_of_toNat (i := .dec len) hlen (by rw [BitVec.toNat_ofNat, Instr.tableMatch, Instr.lowBits]; omega)

/-- `RLEN` holds the length of a `DEC` result whole (R14, R52). -/
theorem toNat_ofNat_decLength (hlen : len < 2 ^ 30) : (BitVec.ofNat 32 (4 * (len / 5))).toNat = 4 * (len / 5) := by
  rw [BitVec.toNat_ofNat]
  omega

/-- The four bytes of a word in order (R32). -/
theorem bytesBe32_eq_map (V : Word) : bytesBe32 V = (List.range 4).map fun k => ((bytesBe32 V)[k]?).getD 0 := rfl

end

/-- Settles O15: the checks in their order, then the result group by group and its frame. -/
theorem decDecodesTheBlock : Obligations.DecDecodesTheBlock := by
  refine fun len s => ⟨decode_dec_word, fun halign => execDec_err (groupCommandError_align halign),
    fun halign hrange => execDec_err (groupCommandError_range halign hrange), fun halign hin hout => ?result,
    by decide⟩
  case result =>
    refine ⟨_, exec_dec_completes halign hin hout, fun g hg => ?group, fun a ha => s.decoded_obufByte_after _ _ ha,
      fun _ => rfl, toNat_ofNat_decLength, rfl⟩
    rw [← State.encodedGroup, bytesBe32_eq_map]
    exact List.map_congr_left fun k hk => s.decoded_obufByte _ _ hg (List.mem_range.1 hk)

end Sys2Proof.Machine
end

section
/-! PROOF. What `FLT` does (42_filter.md R90 to R93): its word, the state it answers, what a second `FLT` finds, and that
the two-index compaction of R91 leaves the same kept bytes. -/

namespace Sys2Proof.Machine

section
variable {len : Nat} {s : State}

/-! ## The kept bytes -/

/-- As many bytes are kept as offsets hold an in-alphabet byte (R93 f). -/
theorem State.keptBytes_length_eq_countP :
    (s.keptBytes len).length = (List.range len).countP fun a => decide (InAlphabet (s.ibufByte a)) := by
  rw [State.keptBytes, ← List.countP_eq_length_filter, State.inputBlock, List.countP_map]
  rfl

/-- A kept byte is in the alphabet (R90, R93 e). -/
theorem State.keptBytes_inAlphabet {b : Byte} (hb : b ∈ s.keptBytes len) : InAlphabet b :=
  (keep_iff b).1 (List.mem_filter.1 hb).2

/-- A dropped byte leaves the kept bytes as they were. -/
theorem State.keptBytes_succ_of_dropped {r : Nat} (h : keep (s.ibufByte r) = false) :
    s.keptBytes (r + 1) = s.keptBytes r := by
  simp [s.keptBytes_succ, h]

/-- A kept byte is put behind the kept bytes before it. -/
theorem State.keptBytes_succ_of_kept {r : Nat} (h : keep (s.ibufByte r) = true) :
    s.keptBytes (r + 1) = s.keptBytes r ++ [s.ibufByte r] := by
  simp [s.keptBytes_succ, h]

/-! ## The command on a block that fits -/

/-- The word `0xC0000000 + len` is the command `FLT len` (R54). -/
theorem decode_flt_word (hlen : len < 2 ^ 30) : decode (BitVec.ofNat 32 (0xC0000000 + len)) = .flt len :=
  decode_eq_of_toNat (i := .flt len) hlen (by rw [BitVec.toNat_ofNat, Instr.tableMatch, Instr.lowBits]; omega)

/-- The state after an `FLT len` that completes (R90). -/
def State.afterFlt (s : State) (len : Nat) : State :=
  ((s.withIbuf (s.filtered len)).drawn (len - (s.keptBytes len).length)).ended
    (BitVec.ofNat 32 (s.keptBytes len).length) statusOk

/-- `FLT` of a block that fits `IBUF` completes. -/
theorem exec_flt_completes (hin : len ≤ s.caps.ibufBytes) : exec (.flt len) s = .next (s.afterFlt len) :=
  execFlt_ok hin

/-- `RLEN` holds the number of kept bytes whole (R14, R52). -/
theorem State.afterFlt_rlen_toNat (hlen : len < 2 ^ 30) : (s.afterFlt len).rlen.toNat = (s.keptBytes len).length := by
  have hle := s.keptBytes_length_le len
  rw [State.afterFlt, State.ended_rlen, BitVec.toNat_ofNat]
  omega

/-- Below the number of kept bytes `IBUF` holds these (R90). -/
theorem State.afterFlt_ibufByte_kept {a : Nat} (ha : a < (s.keptBytes len).length) :
    (s.afterFlt len).ibufByte a = (s.keptBytes len)[a] := by
  rw [State.afterFlt, State.filtered_ibufByte, dif_pos ha]

/-- From the number of kept bytes up to `len` `IBUF` holds free bytes, each of its own index (R92, log 2). -/
theorem State.afterFlt_ibufByte_tail {a : Nat} (hkept : (s.keptBytes len).length ≤ a) (ha : a < len) :
    (s.afterFlt len).ibufByte a = Config.freeByte (s.draws + (a - (s.keptBytes len).length)) := by
  rw [State.afterFlt, State.filtered_ibufByte, dif_neg hkept.not_gt, if_pos ha]

/-- Every byte of the result is in the alphabet (R93 e). -/
theorem State.afterFlt_inAlphabet {a : Nat} (ha : a < (s.keptBytes len).length) :
    InAlphabet ((s.afterFlt len).ibufByte a) :=
  State.afterFlt_ibufByte_kept ha ▸ State.keptBytes_inAlphabet (List.getElem_mem ha)

/-! ## The two-index compaction -/

/-- The byte the loop reads next is dropped: nothing changes (R91). -/
theorem twoIndexFilter_succ_of_dropped {r : Nat} (h : keep ((twoIndexFilter s r).2.ibufByte r) = false) :
    twoIndexFilter s (r + 1) = twoIndexFilter s r := by
  simp [twoIndexFilter, h]

/-- The byte the loop reads next is kept: it goes to the write index, which moves on (R91). -/
theorem twoIndexFilter_succ_of_kept {r : Nat} (h : keep ((twoIndexFilter s r).2.ibufByte r) = true) :
    twoIndexFilter s (r + 1) = ((twoIndexFilter s r).1 + 1, (twoIndexFilter s r).2.withIbuf
      ((twoIndexFilter s r).2.ibuf.write (twoIndexFilter s r).1 ((twoIndexFilter s r).2.ibufByte r))) := by
  simp [twoIndexFilter, h]

/-- After `r` bytes the loop has written the kept ones among them, and from there on `IBUF` is as it was at issue. As no
more bytes are kept than read, the byte it reads next is still the one that stood there at issue (R91). -/
theorem twoIndexFilter_spec (s : State) (r : Nat) :
    (twoIndexFilter s r).1 = (s.keptBytes r).length ∧
      ∀ a, (twoIndexFilter s r).2.ibufByte a = (s.keptBytes r)[a]?.getD (s.ibufByte a) := by
  induction r with
  | zero => exact ⟨rfl, fun _ => rfl⟩
  | succ r ih =>
    obtain ⟨hw, hbyte⟩ := ih
    have hread : (twoIndexFilter s r).2.ibufByte r = s.ibufByte r := by
      rw [hbyte, List.getElem?_eq_none (s.keptBytes_length_le r), Option.getD_none]
    cases hkeep : keep (s.ibufByte r) with
    | false =>
      rw [twoIndexFilter_succ_of_dropped (hread ▸ hkeep), State.keptBytes_succ_of_dropped hkeep]
      exact ⟨hw, hbyte⟩
    | true =>
      rw [twoIndexFilter_succ_of_kept (hread ▸ hkeep), State.keptBytes_succ_of_kept hkeep, hread, hw]
      refine ⟨by rw [List.length_append, List.length_singleton], fun a => ?_⟩
      rw [State.withIbuf_write_ibufByte, hbyte]
      rcases Nat.lt_trichotomy a (s.keptBytes r).length with ha | rfl | ha
      · rw [if_neg ha.ne, List.getElem?_append_left ha]
      · rw [if_pos rfl, List.getElem?_concat_length, Option.getD_some]
      · rw [if_neg ha.ne', List.getElem?_eq_none ha.le, List.getElem?_eq_none]
        rwa [List.length_append, List.length_singleton]

/-- Below the write index stand the kept bytes (R91). -/
theorem twoIndexFilter_ibufByte_kept {a : Nat} (ha : a < (s.keptBytes len).length) :
    (twoIndexFilter s len).2.ibufByte a = (s.keptBytes len)[a] := by
  rw [(twoIndexFilter_spec s len).2, List.getElem?_eq_getElem ha, Option.getD_some]

/-- From the write index on every byte is what stood there at issue (R91). -/
theorem twoIndexFilter_ibufByte_rest {a : Nat} (ha : (s.keptBytes len).length ≤ a) :
    (twoIndexFilter s len).2.ibufByte a = s.ibufByte a := by
  rw [(twoIndexFilter_spec s len).2, List.getElem?_eq_none ha, Option.getD_none]

end

/-! ## The statements -/

/-- Settles O16: the one error, then the kept bytes from offset 0 and the frame. -/
theorem fltCompactsTheBlock : Obligations.FltCompactsTheBlock := by
  refine fun len s => ⟨decode_flt_word, execFlt_err, fun hin => ?result⟩
  case result =>
    have hexec := exec_flt_completes hin
    refine ⟨s.afterFlt len, s.keptBytes len, rfl, hexec, ?_, fun _ ha => exec_flt_ibufByte_of_len_le hexec ha,
      fun _ => rfl, State.afterFlt_rlen_toNat, rfl⟩
    refine List.ext_getElem (by rw [List.length_map, List.length_range]) fun a _ ha => ?_
    rw [List.getElem_map, List.getElem_range, State.afterFlt_ibufByte_kept ha]

/-- Settles O17: the tail is drawn from the counter on, one index for each byte. -/
theorem fltTailBytesAreFreshFreeBytes : Obligations.FltTailBytesAreFreshFreeBytes := by
  intro len s hin hlen
  refine ⟨s.afterFlt len, exec_flt_completes hin, ?_⟩
  rw [State.afterFlt_rlen_toNat hlen]
  exact ⟨rfl, fun _ => State.afterFlt_ibufByte_tail⟩

/-- Settles O26: the loop and the command both leave the kept bytes, and the loop writes nothing behind them. -/
theorem twoIndexFormMeetsTheContract : Obligations.TwoIndexFormMeetsTheContract := by
  intro len s hin
  have hindex (r : Nat) : (twoIndexFilter s r).1 = (s.keptBytes r).length := (twoIndexFilter_spec s r).1
  have hle := s.keptBytes_length_le
  simp only [hindex]
  refine ⟨s.afterFlt len, exec_flt_completes hin, rfl, fun a ha => ?kept, fun r _ => hle r, fun a ha => ?beyond,
    fun _ => twoIndexFilter_ibufByte_rest⟩
  case kept => rw [twoIndexFilter_ibufByte_kept ha, State.afterFlt_ibufByte_kept ha]
  case beyond =>
    rw [twoIndexFilter_ibufByte_rest ((hle len).trans ha), exec_flt_ibufByte_of_len_le (exec_flt_completes hin) ha]

/-- Settles O27: what is kept is in the alphabet, and `FLT` of a block in the alphabet changes no byte. -/
theorem filteringIsIdempotent : Obligations.FilteringIsIdempotent := by
  intro len s hin hlen
  have hle := s.keptBytes_length_le len
  obtain ⟨u, hexec, -, hrlen, hsame⟩ := exec_flt_of_inAlphabet (s := s.afterFlt len) (hle.trans hin)
    fun _ => State.afterFlt_inAlphabet
  refine ⟨s.afterFlt len, u, exec_flt_completes hin, ?_⟩
  rw [State.afterFlt_rlen_toNat hlen]
  refine ⟨hexec, State.keptBytes_length_eq_countP, hle, fun _ => State.afterFlt_inAlphabet, hrlen, hsame,
    fun halpha => ⟨?length, ?bytes⟩⟩
  case length => rw [State.keptBytes_of_inAlphabet halpha, State.inputBlock_length]
  case bytes =>
    obtain ⟨t, ht, -, -, hbytes⟩ := exec_flt_of_inAlphabet hin halpha
    obtain rfl := Host.Outcome.next.inj ((exec_flt_completes hin).symm.trans ht)
    exact hbytes

end Sys2Proof.Machine
end

section
/-! PROOF. The errors of a command (60_exceptions.md R101 to R106): each command has one check, its first error decides
how the command ends, and what `STATUS` and `RLEN` held before has no part in it. -/

namespace Sys2Proof.Machine

/-! ## The check of a command -/

/-- The error a command raises before it reads or writes any byte, none if it completes (R104): `ERR_OP` for every illegal
word, else what the check of the command's length finds. -/
def firstError : Instr → Capacities → Option ErrCode
  | .enc len, c => groupCommandError 4 5 len c
  | .dec len, c => groupCommandError 5 4 len c
  | .flt len, c => filterCommandError len c
  | .illegal _, _ => some .op

/-- The code a check's answer puts in `STATUS` (R100). -/
def codeOf : Option ErrCode → Nat
  | none => 0
  | some e => e.code

theorem codeOf_groupCommandError (groupIn groupOut len : Nat) (c : Capacities) :
    codeOf (groupCommandError groupIn groupOut len c) =
      if len % groupIn ≠ 0 then 2
      else if len > c.ibufBytes ∨ len / groupIn * groupOut > c.obufBytes then 3 else 0 := by
  by_cases halign : len % groupIn = 0
  case neg => rw [if_pos halign, groupCommandError_align halign, codeOf, ErrCode.code]
  case pos =>
    rw [if_neg (not_not.2 halign)]
    split_ifs with hrange
    · rw [groupCommandError_range halign hrange, codeOf, ErrCode.code]
    · obtain ⟨hin, hout⟩ := not_or.1 hrange
      rw [groupCommandError_eq_none.2 ⟨halign, Nat.le_of_not_lt hin, Nat.le_of_not_lt hout⟩, codeOf]

theorem codeOf_filterCommandError (len : Nat) (c : Capacities) :
    codeOf (filterCommandError len c) = if len > c.ibufBytes then 3 else 0 := by
  split_ifs with hrange
  · rw [filterCommandError_range hrange, codeOf, ErrCode.code]
  · rw [filterCommandError_eq_none.2 (Nat.le_of_not_lt hrange), codeOf]

/-- The machine's checks find the errors in the order R104 gives. -/
theorem expectedError_eq_codeOf_firstError (i : Instr) (c : Capacities) :
    expectedError i c = codeOf (firstError i c) := by
  cases i with
  | enc len => exact (codeOf_groupCommandError 4 5 len c).symm
  | dec len => exact (codeOf_groupCommandError 5 4 len c).symm
  | flt len => exact (codeOf_filterCommandError len c).symm
  | illegal low => rfl

/-! ## The two ways a command ends -/

section
variable {i : Instr} {s : State}

/-- A command whose check finds an error writes `STATUS` and `RLEN` and nothing else (R105). -/
theorem exec_of_firstError_some {e : ErrCode} (h : firstError i s.caps = some e) :
    exec i s = .next (s.ended 0 (statusOf e)) := by
  cases i with
  | enc len => exact execEnc_err h
  | dec len => exact execDec_err h
  | flt len =>
    rcases Nat.lt_or_ge s.caps.ibufBytes len with hlen | hlen
    · obtain rfl := Option.some.inj ((filterCommandError_range hlen).symm.trans h)
      exact execFlt_err hlen
    · cases (filterCommandError_eq_none.2 hlen).symm.trans h
  | illegal low =>
    obtain rfl := Option.some.inj h
    rfl

/-- A command whose check finds nothing completes, and reports `OK` whatever the bytes it reads (R107). -/
theorem exec_of_firstError_none (h : firstError i s.caps = none) : ∃ t, exec i s = .next t ∧ t.status = 0 := by
  cases i with
  | enc len => exact ⟨_, execEnc_ok h, rfl⟩
  | dec len => exact ⟨_, execDec_ok h, rfl⟩
  | flt len => exact ⟨_, execFlt_ok (filterCommandError_eq_none.1 h), rfl⟩
  | illegal low => cases h

/-- A command does not read the registers an earlier one ended with: the state it answers overwrites both (R106). -/
theorem exec_ended (i : Instr) (s : State) (rlen status : Word) : exec i (s.ended rlen status) = exec i s := by
  cases h : firstError i s.caps with
  | some e => exact (exec_of_firstError_some (s := s.ended rlen status) h).trans (exec_of_firstError_some h).symm
  | none =>
    cases i with
    | enc len => exact (execEnc_ok (s := s.ended rlen status) h).trans (execEnc_ok h).symm
    | dec len => exact (execDec_ok (s := s.ended rlen status) h).trans (execDec_ok h).symm
    | flt len =>
      have hlen := filterCommandError_eq_none.1 h
      exact (execFlt_ok (s := s.ended rlen status) hlen).trans (execFlt_ok hlen).symm
    | illegal low => cases h

end

/-! ## The statements -/

/-- Settles O19: the check of the command has an error or none, and its code is the expected one. -/
theorem aCommandReportsTheFirstErrorThatApplies : Obligations.ACommandReportsTheFirstErrorThatApplies := by
  have hmisaligned (c : Capacities) : firstError (.enc 6) c = some .align := groupCommandError_align (by decide)
  refine ⟨fun i s => ?_, fun s _ => exec_of_firstError_some (hmisaligned s.caps)⟩
  rw [expectedError_eq_codeOf_firstError]
  cases h : firstError i s.caps with
  | some e => exact ⟨_, exec_of_firstError_some h, rfl, fun _ => rfl⟩
  | none =>
    obtain ⟨t, hexec, hstatus⟩ := exec_of_firstError_none h
    exact ⟨t, hexec, hstatus, fun herr => absurd rfl herr⟩

/-- Settles O18: a word whose bits 31:30 are 0 decodes to an illegal command, and each of these raises `ERR_OP`. -/
theorem illegalWordRaisesErrOp : Obligations.IllegalWordRaisesErrOp := by
  have hillegal (low : BitVec 30) (s : State) : exec (.illegal low) s = .next { s with status := 1, rlen := 0 } :=
    exec_of_firstError_some (e := .op) rfl
  refine ⟨hillegal, fun cw s hop => ?_⟩
  rw [decode_eq_illegal (by rw [hop])]
  exact hillegal _ s

/-- Settles O22: the state with other registers is the one an earlier command could have ended in. -/
theorem oldStatusAndLengthPlayNoPart : Obligations.OldStatusAndLengthPlayNoPart :=
  fun i s status rlen => exec_ended i s rlen status

end Sys2Proof.Machine
end

section
/-! PROOF. The host's padding and truncation (70_reset_and_hazards.md R128 to R131): a group encoded from zero-padded bytes,
cut and padded with `'u'`, decodes to a value that still begins with the bytes before the zeros. -/

namespace Sys2Proof.Machine

/-! ## The host's counts -/

section
variable {count : Nat}

/-- Fewer zero bytes than a raw group has are added (R128). -/
theorem encPadding_lt (count : Nat) : encPadding count < 4 := Nat.mod_lt _ (by decide)

/-- The zero bytes complete the last raw group (R128). -/
theorem exists_count_add_encPadding (count : Nat) : ∃ n, count + encPadding count = 4 * n :=
  ⟨(count + encPadding count) / 4, by rw [encPadding]; omega⟩

variable {n : Nat} (hpadded : count + encPadding count = 4 * n)
include hpadded

/-- As many symbols are dropped as zero bytes were added (R129). -/
theorem encKept_eq : encKept count = 5 * n - encPadding count := by
  rw [encKept, hpadded, Nat.mul_div_cancel_left _ (by decide), Nat.mul_comm]

/-- As many pad symbols are added as symbols were dropped (R130). -/
theorem decPadding_encKept : decPadding (encKept count) = encPadding count := by
  have hp := encPadding_lt count
  rw [encKept_eq hpadded, decPadding]
  omega

/-- The pad symbols complete the last encoded group (R130). -/
theorem encKept_add_decPadding : encKept count + decPadding (encKept count) = 5 * n := by
  rw [decPadding_encKept hpadded, encKept_eq hpadded]
  omega

/-- As many decoded bytes are dropped as pad symbols were added, which leaves the original count (R131). -/
theorem decKept_encKept : decKept (encKept count) = count := by
  rw [decKept, encKept_add_decPadding hpadded, decPadding_encKept hpadded]
  omega

end

/-! ## One padded group -/

/-- The digits of `V` with the last `p` of them replaced by the largest digit, which is that of the pad symbol (R130). -/
def paddedDigit (V : Word) (p k : Nat) : Nat := if k < 5 - p then digit V k else 84

/-- The sum the decoder makes of the padded digits: R131's `V'`. -/
def paddedValue (V : Word) (p : Nat) : Nat :=
  paddedDigit V p 0 * 52200625 + paddedDigit V p 1 * 614125 + paddedDigit V p 2 * 7225 + paddedDigit V p 3 * 85
    + paddedDigit V p 4

section
variable {V : Word} {p k : Nat}

theorem paddedDigit_lt (V : Word) (p k : Nat) : paddedDigit V p k < 85 := by
  rw [paddedDigit]
  split
  · exact digit_lt V k
  · decide

/-- Replacing `p` digits by the largest one adds less than `85^p`: `V <= V' <= V + 85^p - 1` (R131). -/
theorem paddedValue_bounds (V : Word) (hp : p < 4) :
    V.toNat ≤ paddedValue V p ∧ paddedValue V p < V.toNat + 85 ^ p := by
  have hsum := digits_sum V
  have h2 := digit_lt V 2
  have h3 := digit_lt V 3
  have h4 := digit_lt V 4
  interval_cases p <;> simp only [paddedValue, paddedDigit, Nat.reduceSub, Nat.reduceLT, reduceIte] <;> omega

/-- For `V` a multiple of `256^p` the padded sum does not wrap: `V + 256^p <= 2^32` (R131). -/
theorem paddedValue_lt (hp : p < 4) (hV : 256 ^ p ∣ V.toNat) : paddedValue V p < 2 ^ 32 := by
  have hpow : 85 ^ p ≤ 256 ^ p := Nat.pow_le_pow_left (by decide) p
  have hdvd : 256 ^ p ∣ 2 ^ 32 := (Nat.pow_dvd_pow 256 hp.le).trans (by norm_num)
  have hroom : V.toNat + 256 ^ p ≤ 2 ^ 32 :=
    Nat.le_of_lt_add_of_dvd (Nat.add_lt_add_right V.isLt _) (hV.add (dvd_refl _)) hdvd
  calc paddedValue V p < V.toNat + 85 ^ p := (paddedValue_bounds V hp).2
    _ ≤ V.toNat + 256 ^ p := Nat.add_le_add_left hpow _
    _ ≤ 2 ^ 32 := hroom

/-- For `V` a multiple of `256^p` padding changes the last `p` bytes only: `V' div 256^p = V div 256^p` (R131). -/
theorem paddedValue_div (hp : p < 4) (hV : 256 ^ p ∣ V.toNat) :
    paddedValue V p / 256 ^ p = V.toNat / 256 ^ p := by
  have hpow : 85 ^ p ≤ 256 ^ p := Nat.pow_le_pow_left (by decide) p
  obtain ⟨hlo, hhi⟩ := paddedValue_bounds V hp
  have hquot := Nat.div_mul_cancel hV
  refine Nat.div_eq_of_lt_le (hquot.trans_le hlo) ?_
  rw [Nat.add_one_mul, hquot]
  omega

/-- Symbols weighted by their digits: a sum that fits 32 bits is the decoded value (R62). -/
theorem decGroup_symbols_toNat {d0 d1 d2 d3 d4 : Nat} (h0 : d0 < 85) (h1 : d1 < 85) (h2 : d2 < 85) (h3 : d3 < 85)
    (h4 : d4 < 85) (hfits : d0 * 52200625 + d1 * 614125 + d2 * 7225 + d3 * 85 + d4 < 2 ^ 32) :
    (decGroup (symbol d0) (symbol d1) (symbol d2) (symbol d3) (symbol d4)).toNat
      = d0 * 52200625 + d1 * 614125 + d2 * 7225 + d3 * 85 + d4 := by
  have hvalue := decGroup_toNat (symbol d0) (symbol d1) (symbol d2) (symbol d3) (symbol d4)
  rw [groupSum, symbol_toNat h0, symbol_toNat h1, symbol_toNat h2, symbol_toNat h3, symbol_toNat h4] at hvalue
  omega

/-- Byte `k` of a word, the most significant first (R32). -/
theorem bytesBe32_getD_toNat (V : Word) (hk : k < 4) :
    (((bytesBe32 V)[k]?).getD 0).toNat = V.toNat / 256 ^ (3 - k) % 256 := by
  interval_cases k <;> exact extractByte_toNat V _

/-- The first `4 - p` bytes of a word are those of its quotient by `256^p`. -/
theorem bytesBe32_getD_congr {W : Word} (hdiv : V.toNat / 256 ^ p = W.toNat / 256 ^ p) (hk : k + p < 4) :
    ((bytesBe32 V)[k]?).getD 0 = ((bytesBe32 W)[k]?).getD 0 := by
  have hsplit : 256 ^ (3 - k) = 256 ^ p * 256 ^ (3 - k - p) := by
    rw [← pow_add]
    congr 1
    omega
  apply BitVec.eq_of_toNat_eq
  rw [bytesBe32_getD_toNat V (by omega), bytesBe32_getD_toNat W (by omega), hsplit, ← Nat.div_div_eq_div_mul,
    ← Nat.div_div_eq_div_mul, hdiv]

variable {s u : State} {g : Nat}

/-- A raw group that ends in `p` zero bytes is a multiple of `256^p` (R131). -/
theorem State.rawGroup_dvd_of_zeros (hp : p < 4) (hzero : ∀ k, 4 - p ≤ k → k < 4 → s.ibufByte (4 * g + k) = 0) :
    256 ^ p ∣ (s.rawGroup g).toNat := by
  have hbyte (k : Nat) (hlo : 4 - p ≤ k) (hhi : k < 4) : (s.ibufByte (4 * g + k)).toNat = 0 := by
    rw [hzero k hlo hhi]
    rfl
  rw [State.rawGroup, be32_toNat]
  interval_cases p
  · exact one_dvd _
  · rw [hbyte 3 (by decide) (by decide)]
    omega
  · rw [hbyte 2 (by decide) (by decide), hbyte 3 (by decide) (by decide)]
    omega
  · rw [hbyte 1 (by decide) (by decide), hbyte 2 (by decide) (by decide), hbyte 3 (by decide) (by decide)]
    omega

/-- Five bytes of `IBUF` that are the symbols of the padded digits decode to their sum. -/
theorem State.encodedGroup_toNat_of_paddedDigits (hp : p < 4) (hV : 256 ^ p ∣ V.toNat)
    (h : ∀ k, k < 5 → u.ibufByte (5 * g + k) = symbol (paddedDigit V p k)) :
    (u.encodedGroup g).toNat = paddedValue V p := by
  have h0 : u.ibufByte (5 * g) = symbol (paddedDigit V p 0) := h 0 (by decide)
  rw [State.encodedGroup, h0, h 1 (by decide), h 2 (by decide), h 3 (by decide), h 4 (by decide)]
  exact decGroup_symbols_toNat (paddedDigit_lt V p 0) (paddedDigit_lt V p 1) (paddedDigit_lt V p 2)
    (paddedDigit_lt V p 3) (paddedDigit_lt V p 4) (paddedValue_lt hp hV)

/-- A raw group whose last `p` bytes are zeros, encoded, with its last `p` symbols replaced by pad symbols, decodes to the
bytes before the zeros (R131). -/
theorem State.bytesBe32_encodedGroup_of_padded (hp : p < 4)
    (hzero : ∀ k, 4 - p ≤ k → k < 4 → s.ibufByte (4 * g + k) = 0)
    (hkept : ∀ k, k < 5 - p → u.ibufByte (5 * g + k) = symbol (digit (s.rawGroup g) k))
    (hpad : ∀ k, 5 - p ≤ k → k < 5 → u.ibufByte (5 * g + k) = padSymbol) (hk : k + p < 4) :
    ((bytesBe32 (u.encodedGroup g))[k]?).getD 0 = s.ibufByte (4 * g + k) := by
  have hdvd := State.rawGroup_dvd_of_zeros hp hzero
  have hdigits (k : Nat) (hk : k < 5) : u.ibufByte (5 * g + k) = symbol (paddedDigit (s.rawGroup g) p k) := by
    rw [paddedDigit]
    split
    next hlt => exact hkept k hlt
    next hge => exact hpad k (Nat.le_of_not_lt hge) hk
  have hdiv : (u.encodedGroup g).toNat / 256 ^ p = (s.rawGroup g).toNat / 256 ^ p := by
    rw [State.encodedGroup_toNat_of_paddedDigits hp hdvd hdigits, paddedValue_div hp hdvd]
  rw [bytesBe32_getD_congr hdiv hk, State.bytesBe32_rawGroup (by omega)]

end

/-! ## The statement -/

/-- Settles O28: group `g` of the copied block has `5 * (g + 1) - encKept count` pad symbols, none but in the last group, and
its raw group as many zero bytes. -/
theorem paddedTailRoundTrips : Obligations.PaddedTailRoundTrips := by
  intro count s t u hlen hin hout hzero h hcaps hfits hcopy hpad
  obtain ⟨n, hpadded⟩ := exists_count_add_encPadding count
  have hp := encPadding_lt count
  have hsum := encKept_add_decPadding hpadded
  rw [decKept_encKept hpadded]
  rw [decPadding_encKept hpadded] at hsum hpad hfits ⊢
  rw [hsum] at hfits ⊢
  rw [hpadded] at hlen hin hout h
  obtain ⟨hstatus, -⟩ := exec_enc_status_rlen (Nat.mul_mod_right 4 n) hin hout hlen h
  have hdec := exec_dec_completes (s := u) (Nat.mul_mod_right 5 n) hfits (by rw [hcaps]; omega)
  rw [Nat.mul_div_cancel_left n (by decide)] at hdec
  refine ⟨_, hdec, rfl, rfl, ?rlen, fun a ha => ?byte⟩
  case rlen =>
    rw [State.ended_rlen, BitVec.toNat_ofNat]
    omega
  case byte =>
    have hg : a / 4 < n := by omega
    have hbyte := State.bytesBe32_encodedGroup_of_padded (s := s) (u := u) (g := a / 4) (k := a % 4)
      (p := 5 * (a / 4 + 1) - encKept count) (by omega) ?zeros ?kept ?pads (by omega)
    rw [← Nat.div_add_mod a 4, State.decoded_obufByte _ _ _ hg (Nat.mod_lt a (by decide)), hbyte]
    case zeros =>
      intro k hlo hhi
      obtain ⟨j, hj⟩ := Nat.exists_eq_add_of_le (show count ≤ 4 * (a / 4) + k by omega)
      rw [hj]
      exact hzero j (by omega)
    case kept =>
      intro k hk
      rw [hcopy _ (by omega)]
      exact exec_enc_obufByte h hstatus (by omega) (by omega)
    case pads =>
      intro k hlo hhi
      obtain ⟨j, hj⟩ := Nat.exists_eq_add_of_le (show encKept count ≤ 5 * (a / 4) + k by omega)
      rw [hj]
      exact hpad j (by omega)

end Sys2Proof.Machine
end
